-- ==== Sys2Proof/Word.lean ====
section
/-! DEFINITION. The words of the SGTIN96ENC block: the widths of R7 (characters, command words, response
words), of R20 (a GTIN digit, the serial accumulator, the code register) and of R6 (the three parsed fields). -/

namespace Sys2Proof

/-- One character on the ports, an unsigned 8-bit code (R7 `CHAR_W`, R9). -/
abbrev CharCode := BitVec 8

/-- One command word `cmd[11:0]` (R7 `CMD_W`, R70). -/
abbrev CmdWord := BitVec 12

/-- One response word `rsp[9:0]` (R7 `RSP_W`, R76). -/
abbrev RspWord := BitVec 10

/-- One element of the GTIN digit window (R20 `G[i]`). -/
abbrev Digit := BitVec 4

/-- The GTIN digit window `G[0..13]`, `G[0]` leftmost (R20, R23). -/
abbrev Window := Vector Digit 14

/-- The company prefix field (R6 `CP_W`). -/
abbrev CompanyPrefix := BitVec 24

/-- The item reference field (R6 `IR_W`). -/
abbrev ItemRef := BitVec 20

/-- The serial field and the serial accumulator (R6 `SN_W`, R20 `SACC`). -/
abbrev Serial := BitVec 38

/-- The assembled SGTIN-96 value (R6 `EPC_W`, R20 `EPC`). -/
abbrev Epc96 := BitVec 96

end Sys2Proof
end

