-- ==== Sys2Proof/Config.lean ====
section
/-! DEFINITION. What is fixed for the block: the parameters of R6 and R7, the names of the phases (R22), of the
error causes (R190) and of the response codes (R77), and the open value of the port protocol, a constant
without a body. None of them is programmable at run time (R6, R130). -/

namespace Sys2Proof.Config

/-- R6 `HEX_LEN`: characters of the output string. -/
abbrev hexLen : Nat := 24
/-- R7 `GCNT_SAT`: where the GTIN character counter saturates. -/
abbrev gcntSat : BitVec 4 := 15

/-- R6, R130 `HEADER`. -/
abbrev header : BitVec 8 := 0x30
/-- R6, R130 `FILTER`. -/
abbrev filter : BitVec 3 := 1
/-- R6, R130 `PARTITION`. -/
abbrev partition : BitVec 3 := 5

/-- The part of `LAT(op)` beyond its first cycle: open (R7, R227, R231; log entry 5), so it has no body.
No meaning of a command reads it; the port layer (Machine/Ports.lean) does. -/
opaque latBeyondFirst : BitVec 4 → Nat

/-- `LAT(op)`: clock cycles from acceptance to response, an integer that is at least 1 (R7, R227). The port layer counts
the accepting edge as the first of them (log entry 17). -/
def lat (op : BitVec 4) : Nat := latBeyondFirst op + 1

end Sys2Proof.Config

namespace Sys2Proof.Phase

/-- R22: input characters are being received. -/
abbrev collect : BitVec 2 := 0
/-- R22: an `ENC` succeeded. -/
abbrev done : BitVec 2 := 1
/-- R22: an `ENC` failed. -/
abbrev err : BitVec 2 := 2

end Sys2Proof.Phase

namespace Sys2Proof.Cause

/-- R190: no error. -/
abbrev none : BitVec 2 := 0
/-- R190, R191, R194. -/
abbrev invalidDigitInput : BitVec 2 := 1
/-- R190, R193. -/
abbrev serialOutOfRange : BitVec 2 := 2
/-- R190, R192. -/
abbrev malformedGtinLength : BitVec 2 := 3

end Sys2Proof.Cause

namespace Sys2Proof.Code

/-- R77: the command was executed. -/
abbrev ok : BitVec 2 := 0
/-- R77: `ENC` was executed and found the inputs invalid. -/
abbrev err : BitVec 2 := 1
/-- R77: a legal command, not allowed in the current phase, refused. -/
abbrev seq : BitVec 2 := 2
/-- R77: an illegal command word, refused. -/
abbrev ill : BitVec 2 := 3

end Sys2Proof.Code
end

