-- ==== Sys2Proof/Syntax.lean ====
section
/-! DEFINITION. The seven commands of the block (R72), one constructor per row of spec/opcode_table.json. -/

namespace Sys2Proof

/-- A command with its operand (R72, R73). -/
inductive Instr where
  /-- `NOP` (R170). -/
  | nop
  /-- `CLR` (R171). -/
  | clr
  /-- `GCH c`: push one GTIN character, any of the 256 codes (R101). -/
  | gch (c : CharCode)
  /-- `SCH c`: push one serial character, any of the 256 codes (R104). -/
  | sch (c : CharCode)
  /-- `ENC` (R133). -/
  | enc
  /-- `HEX i`: the index field `data[4:0]` (R153). -/
  | hex (i : BitVec 5)
  /-- `RDS sel`: the selector field `data[1:0]` (R172). -/
  | rds (sel : BitVec 2)
deriving DecidableEq, Repr

end Sys2Proof
end

