-- ==== Sys2Proof/WellFormed.lean ====
section
/-! DEFINITION. Which terms of `Instr` are commands the block has: the two range checks of R73. -/

namespace Sys2Proof

/-- The range checks of R73: a hex index is at most 23, a status selector at most 2; a character may be any
of its 256 codes. -/
def wellFormed : Instr → Bool
  | .nop => true
  | .clr => true
  | .gch _ => true
  | .sch _ => true
  | .enc => true
  | .hex i => decide (i ≤ 23)
  | .rds sel => decide (sel ≤ 2)

/-- `wellFormed` as a proposition. -/
abbrev WellFormed (i : Instr) : Prop := wellFormed i = true

end Sys2Proof
end

