-- ==== Sys2Proof/Decode.lean ====
section
/-! DEFINITION. Decoding a 12-bit command word (R70, R75), total on all 4096 words, each illegal word rejected by
the name of its class (R79), and the encoder (R84 'Encoding of a line: `(op << 8) | data`'). -/

namespace Sys2Proof

/-- The four classes of illegal command words, R79 items 1 to 4. -/
inductive IllegalWord where
  /-- R79 item 1: an opcode in 0x7..0xF. -/
  | reservedOpcode
  /-- R79 item 2: `NOP`, `CLR` or `ENC` with `data` not 0x00. -/
  | nonzeroData
  /-- R79 item 3: `HEX` with `data[7:5]` not 0 or an index above 23. -/
  | hexIndexOutOfRange
  /-- R79 item 4: `RDS` with `data[7:2]` not 0 or selector 3. -/
  | selectorOutOfRange
deriving DecidableEq, Repr

/-- What a command word decodes to (R75). -/
inductive Decoded where
  | legal (i : Instr)
  | illegal (why : IllegalWord)
deriving DecidableEq, Repr

/-- `op = w[11:8]` (R70). -/
def opField (w : CmdWord) : BitVec 4 := w.extractLsb' 8 4

/-- `data = w[7:0]` (R70). -/
def dataField (w : CmdWord) : BitVec 8 := w.extractLsb' 0 8

/-- A command without operand: `data` must be 0x00 (R73). -/
def decodePlain (d : BitVec 8) (i : Instr) : Decoded :=
  if d = 0x00 then .legal i else .illegal .nonzeroData

/-- `HEX`: `data[7:5] = 0` and `data[4:0] <= 23` (R73). -/
def decodeHex (d : BitVec 8) : Decoded :=
  if d.extractLsb' 5 3 = 0 ∧ d.extractLsb' 0 5 ≤ 23 then .legal (.hex (d.extractLsb' 0 5))
  else .illegal .hexIndexOutOfRange

/-- `RDS`: `data[7:2] = 0` and `data[1:0] <= 2` (R73). -/
def decodeRds (d : BitVec 8) : Decoded :=
  if d.extractLsb' 2 6 = 0 ∧ d.extractLsb' 0 2 ≤ 2 then .legal (.rds (d.extractLsb' 0 2))
  else .illegal .selectorOutOfRange

/-- The opcode map of R72 applied to the two fields of a word. -/
def decodeFields (op : BitVec 4) (d : BitVec 8) : Decoded :=
  if op = 0x0 then decodePlain d .nop
  else if op = 0x1 then decodePlain d .clr
  else if op = 0x2 then .legal (.gch d)
  else if op = 0x3 then .legal (.sch d)
  else if op = 0x4 then decodePlain d .enc
  else if op = 0x5 then decodeHex d
  else if op = 0x6 then decodeRds d
  else .illegal .reservedOpcode

/-- `decode` of R75. -/
def decode (w : CmdWord) : Decoded := decodeFields (opField w) (dataField w)

/-- The opcode of a command (R72). -/
def opcodeOf : Instr → BitVec 4
  | .nop => 0x0
  | .clr => 0x1
  | .gch _ => 0x2
  | .sch _ => 0x3
  | .enc => 0x4
  | .hex _ => 0x5
  | .rds _ => 0x6

/-- The operand byte of a command (R73); the must-be-zero bits are zero. -/
def dataOf : Instr → BitVec 8
  | .nop => 0x00
  | .clr => 0x00
  | .gch c => c
  | .sch c => c
  | .enc => 0x00
  | .hex i => 0#3 ++ i
  | .rds sel => 0#6 ++ sel

/-- The command word of a command (R70, R84): `op` in bits 11:8, `data` in bits 7:0. -/
def encode (i : Instr) : CmdWord := opcodeOf i ++ dataOf i

/-- The 12 wires of `cmd` carry the low 12 bits of a table word; the bits a byte-rounded length adds above
bit 11 have no wire (R70, log entry 4). -/
def portWord (nbits w : Nat) : CmdWord := BitVec.ofNat 12 (w % 2 ^ nbits)

/-- The command the decoder reads from a word numbered as spec/opcode_table.json numbers it. -/
def decodeTableWord (nbits w : Nat) : Option Instr :=
  match decode (portWord nbits w) with
  | .legal i => some i
  | .illegal _ => none

end Sys2Proof
end

