-- ==== Sys2Proof/Machine/State.lean ====
section
/-! DEFINITION. The state of the block as plain data: the registers of R20 'and no other', the host's side of the
command port as a list of the moves it has still to make, and the response port. -/

namespace Sys2Proof.Machine

/-- The 202 bits of R20. One-bit sticky flags are `Bool`, every other register is a bit vector of its width. -/
structure Regs where
  /-- `PH`, phase (R22). -/
  ph : BitVec 2
  /-- `CAUSE`, error cause of the failed `ENC` (R30). -/
  cause : BitVec 2
  /-- `G[0..13]`, GTIN digit window (R23). -/
  g : Window
  /-- `GCNT`, GTIN character counter (R24). -/
  gcnt : BitVec 4
  /-- `GBAD`, sticky (R25). -/
  gbad : Bool
  /-- `SACC`, serial accumulator (R26). -/
  sacc : Serial
  /-- `SNE`, sticky (R27). -/
  sne : Bool
  /-- `SBAD`, sticky (R28). -/
  sbad : Bool
  /-- `SOVF`, sticky (R29). -/
  sovf : Bool
  /-- `EPC`, the assembled value (R31). -/
  epc : Epc96
deriving DecidableEq, Repr

/-- The reset value of every register (R20 last column, R35). -/
def Regs.reset : Regs where
  ph := 0
  cause := 0
  g := #v[0, 0, 0, 0, 0, 0, 0, 0, 0, 0, 0, 0, 0, 0]
  gcnt := 0
  gbad := false
  sacc := 0
  sne := false
  sbad := false
  sovf := false
  epc := 0

/-- One thing the outside world does to the block (R83, R228). -/
inductive HostMove where
  /-- A stretch of cycles with `rst` = 0 and `cmd_valid` = 0. -/
  | idle
  /-- A word offered, held until accepted, its response captured (R225, R227). -/
  | command (w : CmdWord)
  /-- A reset pulse with no command in flight (R220). -/
  | reset
  /-- A word accepted, then a reset pulse before its response (R224). -/
  | commandThenReset (w : CmdWord)
  /-- The host changes or withdraws the offered word `w` before acceptance, against R225 and R228. -/
  | changeWhileWaiting (w : CmdWord)
  /-- The host fails to capture the response to `w`, against R227 and R228. -/
  | missResponse (w : CmdWord)
deriving DecidableEq, Repr

/-- The block and what stands at its two ports. `host` is the environment's, not a queue inside the block (R226);
`rsp` is the response port: `some` while `rsp_valid` = 1, `none` while it is 0 and `rsp` is unspecified (R227). -/
structure State where
  /-- The registers of R20. -/
  regs : Regs
  /-- What the host does from now on, the next move first. -/
  host : List HostMove
  /-- The response port after the last step. -/
  rsp : Option RspWord
deriving DecidableEq, Repr

/-- Why the machine stops. Both are the host's breaches that R228 calls outside the spec: 'the model has no move
for it'. Safe: the block itself goes on there, and the model claims nothing of it (log entry 3). -/
inductive Fault where
  /-- Raised by `step` on `HostMove.changeWhileWaiting` and by `Ports.edge` when the offered word changes or is
  withdrawn before acceptance (R225, R228). Safe. -/
  | commandChangedWhileWaiting
  /-- Raised by `step` on `HostMove.missResponse` (R227, R228). Safe. -/
  | responseNotCaptured
deriving DecidableEq, Repr

/-- Why an instruction has no meaning. -/
inductive Refusal where
  /-- An arm of `exec` without a meaning would raise it; no arm does. Safe. -/
  | notModelled (mnemonic : String)
deriving DecidableEq, Repr

/-- The block right after reset (R35, R220): every register 0, no response presented; the host's future moves
come from outside the machine (log entry 1). -/
def State.reset : State where
  regs := Regs.reset
  host := []
  rsp := none

end Sys2Proof.Machine
end

