-- ==== Sys2Proof/Machine/Ops.lean ====
section
/-! DEFINITION. The operations the commands share: answering on the response port (R76), the two refusals (R77,
R205), phase legality (R80) and the order of checks (R81), entering an error (R196) and returning from it (R171,
R198), reset (R220, R224), and the host's end of the command port. -/

namespace Sys2Proof.Machine

/-- `respond(code, rdata)` of R76: the response word is `code ++ rdata`. -/
def State.respond (s : State) (code : BitVec 2) (rdata : BitVec 8) : State :=
  { s with rsp := some (code ++ rdata) }

/-- The state with other registers. -/
def State.setRegs (s : State) (r : Regs) : State := { s with regs := r }

/-- Executed: the registers become `r` and the answer is `OK(rdata)` (R77). -/
def State.finish (s : State) (r : Regs) (rdata : BitVec 8) : State := (s.setRegs r).respond Code.ok rdata

/-- Refused for phase: `SEQ(00)`, no register written (R77, R80, R205). -/
def State.answerSeq (s : State) : State := s.respond Code.seq 0x00

/-- Refused as illegal: `ILL(00)`, no register written (R77, R79, R205). -/
def State.answerIll (s : State) : State := s.respond Code.ill 0x00

/-- Phase legality, the table of R80. -/
def allowed (i : Instr) (ph : BitVec 2) : Bool :=
  match i with
  | .nop => true
  | .clr => true
  | .rds _ => true
  | .gch _ => ph == Phase.collect
  | .sch _ => ph == Phase.collect
  | .enc => ph == Phase.collect
  | .hex _ => ph == Phase.done

/-- The order of checks of R81: legality of the word, then the phase, then the command's own rule `body`. A command
with an operand out of range has only illegal words, so it answers `ILL`. -/
def guarded (i : Instr) (s : State) (body : State) : Host.Outcome State Fault Refusal :=
  if wellFormed i then
    if allowed i s.regs.ph then .next body else .next s.answerSeq
  else .next s.answerIll

/-- `raise EncodeError(cause)` of R196: `PH <- 2`, `CAUSE <- cause`, `respond(ERR, zext_8(cause))`, nothing else. -/
def raiseEncodeError (cause : BitVec 2) (s : State) : State :=
  (s.setRegs { s.regs with ph := Phase.err, cause := cause }).respond Code.err (cause.setWidth 8)

/-- The writes of `CLR`, which are also the return from an error (R171, R198). -/
def clearedRegs : Regs where
  ph := 0
  cause := 0
  g := #v[0, 0, 0, 0, 0, 0, 0, 0, 0, 0, 0, 0, 0, 0]
  gcnt := 0
  gbad := false
  sacc := 0
  sne := false
  sbad := false
  sovf := false
  epc := 0

/-- A reset pulse (R220), with or without a command in flight (R224): reset values, no response. -/
def applyReset (s : State) : State := { s with regs := Regs.reset, rsp := none }

/-- Cycles without a command: the registers stay and `rsp_valid` is 0 (R227). -/
def applyIdle (s : State) : State := { s with rsp := none }

/-- The host will offer `w` before the rest of its moves. -/
def State.offer (s : State) (w : CmdWord) : State := { s with host := .command w :: s.host }

end Sys2Proof.Machine
end

