-- ==== Sys2Proof/Machine/Operands.lean ====
section
/-! DEFINITION. Operands and the parser's arithmetic: digit characters (R11), the decimal value of a digit string
(R11), the shift of the digit window (R101), and the conversion stage `cpval`, `irval`, `snval` (R102, R103,
R105). -/

namespace Sys2Proof.Machine

/-- `isdigit` of R11: codes 0x30 to 0x39. -/
def isdigit (c : CharCode) : Bool := decide (0x30 ≤ c) && decide (c ≤ 0x39)

/-- `dval` of R11: `(c - 0x30)[3:0]`, used only on digits. -/
def dval (c : CharCode) : Digit := (c - 0x30).extractLsb' 0 4

/-- `dec` of R11: the value of a digit string, the leftmost digit most significant. -/
def dec : List Digit → Nat
  | [] => 0
  | d :: ds => d.toNat * 10 ^ ds.length + dec ds

/-- The shift of R101: `G[i] <- G[i+1]` for `i` in 0..12 and `G[13] <- d`. -/
def shiftIn (g : Window) (d : Digit) : Window :=
  #v[g[1], g[2], g[3], g[4], g[5], g[6], g[7], g[8], g[9], g[10], g[11], g[12], g[13], d]

/-- `cpval` of R102: positions 1 to 7. -/
def cpval (g : Window) : CompanyPrefix :=
  BitVec.ofNat 24 (dec [g[1], g[2], g[3], g[4], g[5], g[6], g[7]])

/-- `irval` of R103: positions 8 to 12 (five digits, spec/90_conflicts.md C1). -/
def irval (g : Window) : ItemRef := BitVec.ofNat 20 (dec [g[8], g[9], g[10], g[11], g[12]])

/-- `snval` of R105: the accumulator itself; nothing is added (R5). -/
def snval (sacc : Serial) : Serial := sacc

/-- `t = SACC * 10 + dval(c)` of R104, a natural number before any reduction. -/
def serialSum (sacc : Serial) (c : CharCode) : Nat := sacc.toNat * 10 + (dval c).toNat

end Sys2Proof.Machine
end

