-- ==== Sys2Proof/Machine/Flags.lean ====
section
/-! DEFINITION. The counter, the sticky flags, the error decision and the status views: `GCNT` (R24), `GBAD` (R25),
`SNE` (R27), `SBAD` (R28), `SOVF` (R29), `enc_cause` (R195), `STATUS`, `FLAGS` and `GCNTR` (R32, R172). -/

namespace Sys2Proof.Machine

/-- `GCNT <- min(GCNT + 1, 15)` (R24, R101). -/
def gcntNext (gcnt : BitVec 4) : BitVec 4 := if gcnt = Config.gcntSat then Config.gcntSat else gcnt + 1

/-- `GBAD` is set by a non-digit, never cleared by a push (R25, R101). -/
def gbadNext (gbad : Bool) (c : CharCode) : Bool := gbad || !isdigit c

/-- `SBAD` is set by a non-digit, never cleared by a push (R28, R104). -/
def sbadNext (sbad : Bool) (c : CharCode) : Bool := sbad || !isdigit c

/-- `SOVF <- SOVF or (t >= 2^38)` on a digit; unchanged on a non-digit (R29, R104). -/
def sovfNext (sovf : Bool) (sacc : Serial) (c : CharCode) : Bool :=
  if isdigit c then sovf || decide (2 ^ 38 ≤ serialSum sacc c) else sovf

/-- `SACC <- t mod 2^38` on a digit; unchanged on a non-digit (R26, R104). -/
def saccNext (sacc : Serial) (c : CharCode) : Serial :=
  if isdigit c then BitVec.ofNat 38 (serialSum sacc c) else sacc

/-- `enc_cause` of R195, highest priority first. -/
def encCause (gcnt : BitVec 4) (gbad sbad sne sovf : Bool) : BitVec 2 :=
  if gcnt = Config.gcntSat then Cause.malformedGtinLength
  else if gbad || sbad || !sne then Cause.invalidDigitInput
  else if sovf then Cause.serialOutOfRange
  else Cause.none

/-- `STATUS` of R32: bits 7:4 read 0, then `CAUSE`, `ERR`, `DONE`. -/
def statusView (r : Regs) : BitVec 8 :=
  0#4 ++ r.cause ++ BitVec.ofBool (r.ph == Phase.err) ++ BitVec.ofBool (r.ph == Phase.done)

/-- `FLAGS` of R32: bits 7:5 read 0, then `GLONG`, `SOVF`, `SNE`, `SBAD`, `GBAD`. -/
def flagsView (r : Regs) : BitVec 8 :=
  0#3 ++ BitVec.ofBool (r.gcnt == Config.gcntSat) ++ BitVec.ofBool r.sovf ++ BitVec.ofBool r.sne ++
    BitVec.ofBool r.sbad ++ BitVec.ofBool r.gbad

/-- `GCNTR` of R32: bits 7:4 read 0, then `GCNT`. -/
def gcntrView (r : Regs) : BitVec 8 := 0#4 ++ r.gcnt

/-- The view `RDS sel` returns, for `sel` 0, 1, 2 (R172). -/
def viewOf (sel : BitVec 2) (r : Regs) : BitVec 8 :=
  if sel = 0 then statusView r else if sel = 1 then flagsView r else gcntrView r

end Sys2Proof.Machine
end

