-- ==== Sys2Proof/Machine/Control.lean ====
section
/-! DEFINITION. The control and status commands: `NOP` (R170), `CLR` (R171) and `RDS` (R172). -/

namespace Sys2Proof.Machine

/-- `NOP` (R170). -/
def execNop (s : State) : Host.Outcome State Fault Refusal := guarded .nop s (s.finish s.regs 0x00)

/-- `CLR` (R171), the return from an error too (R198). -/
def execClr (s : State) : Host.Outcome State Fault Refusal := guarded .clr s (s.finish clearedRegs 0x00)

/-- `RDS sel` (R172): reading clears nothing. -/
def execRds (sel : BitVec 2) (s : State) : Host.Outcome State Fault Refusal :=
  guarded (.rds sel) s (s.finish s.regs (viewOf sel s.regs))

end Sys2Proof.Machine
end

