-- ==== Sys2Proof/Machine/HexFormat.lean ====
section
/-! DEFINITION. The hex formatter: `nib` (R151), `hexchar` (R152), `hexstr` (R155) and the command `HEX` (R153). -/

namespace Sys2Proof.Machine

/-- `nib(v, i) = v[95-4*i : 92-4*i]` of R151, used only for `i` in 0..23. -/
def nib (v : Epc96) (i : Nat) : BitVec 4 := v.extractLsb' (92 - 4 * i) 4

/-- `hexchar` of R152, the uppercase hexadecimal digit. -/
def hexchar (n : BitVec 4) : CharCode :=
  if n ≤ 9 then 0x30 + n.setWidth 8 else 0x41 + (n.setWidth 8 - 10)

/-- `hexstr` of R155: the 24 characters, most significant nibble first. -/
def hexstr (v : Epc96) : List CharCode := (List.range Config.hexLen).map fun i => hexchar (nib v i)

/-- `HEX i` (R153). -/
def execHex (i : BitVec 5) (s : State) : Host.Outcome State Fault Refusal :=
  guarded (.hex i) s (s.finish s.regs (hexchar (nib s.regs.epc i.toNat)))

end Sys2Proof.Machine
end

