-- ==== Sys2Proof/Machine/Packer.lean ====
section
/-! DEFINITION. The bit-field packer: `pack96` (R131) and the command `ENC` (R133). -/

namespace Sys2Proof.Machine

/-- `pack96` of R131: the three constants, then the three fields, most significant first. -/
def pack96 (cp : CompanyPrefix) (ir : ItemRef) (sn : Serial) : Epc96 :=
  Config.header ++ Config.filter ++ Config.partition ++ cp ++ ir ++ sn

/-- The error decision on the registers as they stand at `ENC` (R133, R195). -/
def Regs.encCause (r : Regs) : BitVec 2 := Machine.encCause r.gcnt r.gbad r.sbad r.sne r.sovf

/-- The code a successful `ENC` latches (R133). -/
def Regs.code (r : Regs) : Epc96 := pack96 (cpval r.g) (irval r.g) (snval r.sacc)

/-- `ENC` in COLLECT (R133): raise the error, or latch `EPC` and go to DONE. -/
def encodeNow (s : State) : State :=
  if s.regs.encCause = Cause.none then s.finish { s.regs with epc := s.regs.code, ph := Phase.done } 0x00
  else raiseEncodeError s.regs.encCause s

/-- `ENC` (R133). -/
def execEnc (s : State) : Host.Outcome State Fault Refusal := guarded .enc s (encodeNow s)

end Sys2Proof.Machine
end

