-- ==== Sys2Proof/Machine/Parser.lean ====
section
/-! DEFINITION. The decimal-to-fixed-width parser's commands: `GCH` (R101) and `SCH` (R104). -/

namespace Sys2Proof.Machine

/-- The writes of `GCH c` in COLLECT (R101): the window takes a digit only while fewer than 14 characters have come. -/
def pushGtin (c : CharCode) (r : Regs) : Regs :=
  { r with
    g := if isdigit c && decide (r.gcnt < 14) then shiftIn r.g (dval c) else r.g
    gbad := gbadNext r.gbad c
    gcnt := gcntNext r.gcnt }

/-- The writes of `SCH c` in COLLECT (R104). -/
def pushSerial (c : CharCode) (r : Regs) : Regs :=
  { r with
    sne := true
    sacc := saccNext r.sacc c
    sovf := sovfNext r.sovf r.sacc c
    sbad := sbadNext r.sbad c }

/-- `GCH c` (R101). -/
def execGch (c : CharCode) (s : State) : Host.Outcome State Fault Refusal :=
  guarded (.gch c) s (s.finish (pushGtin c s.regs) 0x00)

/-- `SCH c` (R104). -/
def execSch (c : CharCode) (s : State) : Host.Outcome State Fault Refusal :=
  guarded (.sch c) s (s.finish (pushSerial c s.regs) 0x00)

end Sys2Proof.Machine
end

