-- ==== Sys2Proof/Machine/Dispatch.lean ====
section
/-! DEFINITION. The dispatch of a decoded command to its meaning, one arm per constructor of `Instr`. -/

namespace Sys2Proof.Machine

def exec (i : Instr) (s : State) : Host.Outcome State Fault Refusal :=
  match i with
  | .nop => Sys2Proof.Machine.execNop s
  | .clr => Sys2Proof.Machine.execClr s
  | .gch c => Sys2Proof.Machine.execGch c s
  | .sch c => Sys2Proof.Machine.execSch c s
  | .enc => Sys2Proof.Machine.execEnc s
  | .hex idx => Sys2Proof.Machine.execHex idx s
  | .rds sel => Sys2Proof.Machine.execRds sel s

end Sys2Proof.Machine
end

