-- ==== Sys2Proof/Machine/Step.lean ====
section
/-! DEFINITION. One step of the machine: the host's next move is taken. For a command that is one accepted command
word, `(state, word)` to `(state, response)` (R81, R83); the machine is deterministic because the host's moves are
data in the state. -/

namespace Sys2Proof.Machine

/-- `step(state, w)` of R81 for a word that has been accepted. -/
def runWord (w : CmdWord) (s : State) : Host.Outcome State Fault Refusal :=
  match decode w with
  | .legal i => exec i s
  | .illegal _ => .next s.answerIll

/-- The step: take the host's next move. With no move left the block idles (R227). -/
def step (s : State) : Host.Outcome State Fault Refusal :=
  match s.host with
  | [] => .next (applyIdle s)
  | .idle :: rest => .next (applyIdle { s with host := rest })
  | .command w :: rest => runWord w { s with host := rest }
  | .reset :: rest => .next (applyReset { s with host := rest })
  | .commandThenReset _ :: rest => .next (applyReset { s with host := rest })
  | .changeWhileWaiting _ :: _ => .fault .commandChangedWhileWaiting
  | .missResponse _ :: _ => .fault .responseNotCaptured

/-- The state in which the host's very next move is to send the table word `w` (log entry 1: commands come from
outside the machine). -/
def State.withFetchWord (s : State) (nbits w : Nat) : State := s.offer (portWord nbits w)

end Sys2Proof.Machine
end

