-- ==== Sys2Proof/Machine/Ports.lean ====
section
/-! DEFINITION. The port level of the block (R83, R220, R224 to R227): what one rising clock edge does to the ports.
It stands beside the machine, whose step is one accepted command (R83); no meaning of a command reads anything of
this file. `LAT(op)` is open (Config). -/

namespace Sys2Proof.Machine

/-- What the host drives at one rising edge (R83). -/
structure PinIn where
  rst : Bool
  cmdValid : Bool
  cmd : CmdWord
deriving DecidableEq, Repr

/-- A command accepted and not yet answered, and the edges left to its response (R226, R227). -/
structure Job where
  word : CmdWord
  left : Nat
deriving DecidableEq, Repr

/-- The block between two clock edges. -/
structure Ports where
  /-- The registers of R20. -/
  regs : Regs
  /-- The one command in flight (R226). -/
  job : Option Job
  /-- The response port: `some` while `rsp_valid` = 1 (R227). -/
  rsp : Option RspWord
  /-- A word offered at the last edge and not accepted there, which the host must hold (R225). -/
  held : Option CmdWord
deriving DecidableEq, Repr

/-- `cmd_ready`: low exactly while a command is in flight. R226 keeps it low that long, and R204 leaves no wait state after
it: 'the block is always either ready for a command or executing one' (log entry 6). -/
def Ports.cmdReady (p : Ports) : Bool := p.job.isNone

/-- `rsp_valid` (R227). -/
def Ports.rspValid (p : Ports) : Bool := p.rsp.isSome

/-- The block after an edge with `rst` = 1 (R220, R224). -/
def Ports.afterReset : Ports where
  regs := Regs.reset
  job := none
  rsp := none
  held := none

/-- The host keeps its duty of R225: a word it had to hold is offered unchanged. -/
def Ports.keepsOffer (p : Ports) (pin : PinIn) : Bool :=
  match p.held with
  | none => true
  | some w => pin.cmdValid && pin.cmd == w

/-- The block has a command in flight: it answers when the last edge is reached, all its writes at once (R36, R227). The
last edge may be the accepting one: which edge `LAT(op)` counts from is the model's choice (log entry 17). -/
def Ports.advance (p : Ports) (j : Job) : Host.Outcome Ports Fault Refusal :=
  if j.left ≤ 1 then
    match runWord j.word { regs := p.regs, host := [], rsp := none } with
    | .next t =>
      .next { p with regs := t.regs, job := none, rsp := t.rsp }
    | .fault f => .fault f
    | .refused r => .refused r
  else .next { p with job := some { j with left := j.left - 1 }, rsp := none }

/-- A command is accepted at this edge (R83): `rst` = 0, `cmd_valid` = 1 and `cmd_ready` = 1. -/
def Ports.accepts (p : Ports) (pin : PinIn) : Bool := !pin.rst && pin.cmdValid && p.cmdReady

/-- The word the host must go on offering after this edge (R225). -/
def Ports.heldAfter (p : Ports) (pin : PinIn) : Option CmdWord :=
  if pin.cmdValid && !p.cmdReady then some pin.cmd else none

/-- The job in hand during this edge: the one in flight, or the command accepted now. The accepting edge counts as the
first of the `LAT(op)` edges (DESIGN CHOICE, log entry 17: R227 says 'accepted at edge `k`' and '`LAT(op)` cycles later'
and not from which edge the cycles are counted). So with `LAT(op)` = 1 the response stands right after the accepting
edge, and `cmd_ready` does not go low. -/
def Ports.jobAt (p : Ports) (pin : PinIn) : Option Job :=
  if p.accepts pin then some { word := pin.cmd, left := Config.lat (opField pin.cmd) } else p.job

/-- One rising edge of `clk`. A reset edge takes all registers to their reset values and accepts nothing (R220),
whatever was offered (log entry 7). -/
def Ports.edge (p : Ports) (pin : PinIn) : Host.Outcome Ports Fault Refusal :=
  if pin.rst then .next Ports.afterReset
  else if p.keepsOffer pin then
    let q := { p with held := p.heldAfter pin }
    match p.jobAt pin with
    | some j => q.advance j
    | none => .next { q with rsp := none }
  else .fault .commandChangedWhileWaiting

/-- A run of clock edges, stopping at the first fault or refusal. -/
def Ports.edges (p : Ports) : List PinIn → Host.Outcome Ports Fault Refusal
  | [] => .next p
  | pin :: pins =>
    match p.edge pin with
    | .next q => q.edges pins
    | .fault f => .fault f
    | .refused r => .refused r

/-- The command-level move one edge amounts to: a reset, a command that is answered at this edge, or nothing. -/
def Ports.moveAt (p : Ports) (pin : PinIn) : HostMove :=
  if pin.rst then
    match p.job with
    | some j => .commandThenReset j.word
    | none => .reset
  else
    match p.jobAt pin with
    | some j => if j.left ≤ 1 then .command j.word else .idle
    | none => .idle

/-- The command-level moves a run of edges amounts to, as far as it goes. -/
def Ports.movesOf (p : Ports) : List PinIn → List HostMove
  | [] => []
  | pin :: pins =>
    match p.edge pin with
    | .next q => p.moveAt pin :: q.movesOf pins
    | .fault _ => []
    | .refused _ => []

/-- The words accepted along a run of edges, oldest first. -/
def Ports.acceptedAlong (p : Ports) : List PinIn → List CmdWord
  | [] => []
  | pin :: pins =>
    match p.edge pin with
    | .next q => (if p.accepts pin then [pin.cmd] else []) ++ q.acceptedAlong pins
    | .fault _ => []
    | .refused _ => []

/-- The responses presented after the edges of a run, oldest first. -/
def Ports.responsesAlong (p : Ports) : List PinIn → List RspWord
  | [] => []
  | pin :: pins =>
    match p.edge pin with
    | .next q => q.rsp.toList ++ q.responsesAlong pins
    | .fault _ => []
    | .refused _ => []

end Sys2Proof.Machine
end

