-- ==== Sys2Proof/Machine/Reference.lean ====
section
/-! DEFINITION. The reference function of the specification, `encode_ref` (R12, R13), on strings and natural numbers,
written without the block's registers, windows or bit vectors so that R138 compares two independent things. -/

namespace Sys2Proof.Reference

/-- A digit character (R11). -/
def isDigit (c : CharCode) : Bool := decide (48 ≤ c.toNat ∧ c.toNat ≤ 57)

/-- The value of a digit character (R11). -/
def digit (c : CharCode) : Nat := c.toNat - 48

/-- The value of a decimal string, the leftmost digit most significant (R11 `dec`). -/
def decimal (cs : List CharCode) : Nat := cs.foldl (fun t c => 10 * t + digit c) 0

/-- `gtin_ok` of R12. -/
def gtinOk (gtin : List CharCode) : Bool := decide (gtin.length ≤ 14) && gtin.all isDigit

/-- `serial_digits` of R12. -/
def serialDigits (serial : List CharCode) : Bool := decide (1 ≤ serial.length) && serial.all isDigit

/-- `serial_ok` of R12. -/
def serialOk (serial : List CharCode) : Bool :=
  serialDigits serial && decide (decimal serial ≤ 2 ^ 38 - 1)

/-- R13 step 1: left-pad with `'0'` to 14 characters. -/
def padded (gtin : List CharCode) : List CharCode := List.replicate (14 - gtin.length) 0x30 ++ gtin

/-- R13 step 2: drop the last character, leaving positions 0 to 12. -/
def withoutCheckDigit (gtin : List CharCode) : List CharCode := (padded gtin).take 13

/-- R13 step 3: positions 1 to 7. -/
def companyPrefix (gtin : List CharCode) : Nat := decimal (((withoutCheckDigit gtin).drop 1).take 7)

/-- R13 step 4: positions 8 to 12. -/
def itemReference (gtin : List CharCode) : Nat := decimal (((withoutCheckDigit gtin).drop 8).take 5)

/-- R13 step 6: the 96-bit value, shifts and OR in unbounded naturals (R8). -/
def value (gtin serial : List CharCode) : Nat :=
  (0x30 <<< 88) ||| (1 <<< 85) ||| (5 <<< 82) ||| (companyPrefix gtin <<< 58) |||
    (itemReference gtin <<< 38) ||| decimal serial

/-- R13 step 7, R152: one uppercase hexadecimal character. -/
def hexDigit (n : Nat) : CharCode := if n ≤ 9 then BitVec.ofNat 8 (48 + n) else BitVec.ofNat 8 (65 + (n - 10))

/-- R13 step 7, R151: character `i` of the output, `(v div 16^(23-i)) mod 16` as a digit. -/
def hexCharAt (v i : Nat) : CharCode := hexDigit (v / 16 ^ (23 - i) % 16)

/-- R13 step 7: the 24 characters. -/
def hexString (v : Nat) : List CharCode := (List.range 24).map (hexCharAt v)

/-- `encode_ref` of R13: the 24 characters, defined on valid inputs only. -/
def encodeRef (gtin serial : List CharCode) : Option (List CharCode) :=
  if gtinOk gtin && serialOk serial then some (hexString (value gtin serial)) else none

end Sys2Proof.Reference
end

