-- ==== Sys2Proof/Machine/Transaction.lean ====
section
/-! DEFINITION. Sequences of commands: the exchange of words and responses with a host that keeps the protocol (R59,
R226), and the pseudo-commands of R85 with the sequences they stand for. -/

namespace Sys2Proof.Machine

/-- The host sends the words one after another, each as its next move, and captures each response; the answer is the
responses in order and the state after the last (R59, R226). `none` where a step stops or gives no response. -/
def exchange : List CmdWord → State → Option (List RspWord × State)
  | [], s => some ([], s)
  | w :: ws, s =>
    match step (s.offer w) with
    | .next t =>
      match t.rsp, exchange ws t with
      | some r, some (rs, u) => some (r :: rs, u)
      | _, _ => none
    | .fault _ => none
    | .refused _ => none

/-- The pseudo-commands of R85. -/
inductive Pseudo where
  /-- `GSTR "s"`. -/
  | gstr (s : List CharCode)
  /-- `SSTR "s"`. -/
  | sstr (s : List CharCode)
  /-- `HEXALL`. -/
  | hexall
  /-- `ENCODE "g", "s"`. -/
  | encode (g s : List CharCode)
deriving DecidableEq, Repr

/-- `HEX 0`, `HEX 1`, ..., `HEX 23` (R85). -/
def hexAll : List Instr := (List.range Config.hexLen).map fun i => .hex (BitVec.ofNat 5 i)

/-- The expansion of a pseudo-command (R85). -/
def Pseudo.expand : Pseudo → List Instr
  | .gstr s => s.map .gch
  | .sstr s => s.map .sch
  | .hexall => hexAll
  | .encode g s => [.clr] ++ g.map .gch ++ s.map .sch ++ [.enc] ++ hexAll

/-- The command words of a command list (R84). -/
def wordsOf (is : List Instr) : List CmdWord := is.map Sys2Proof.encode

/-- The characters a command list pushes with `GCH`, in order (R33, R51). -/
def gtinChars (is : List Instr) : List CharCode :=
  is.filterMap fun
    | .gch c => some c
    | _ => none

/-- The characters a command list pushes with `SCH`, in order (R33, R51). -/
def serialChars (is : List Instr) : List CharCode :=
  is.filterMap fun
    | .sch c => some c
    | _ => none

/-- The commands that may stand before `ENC` in a transaction: pushes, `NOP` and `RDS` (R138). -/
def fillsTransaction : Instr → Bool
  | .nop => true
  | .clr => false
  | .gch _ => true
  | .sch _ => true
  | .enc => false
  | .hex _ => false
  | .rds sel => wellFormed (.rds sel)

end Sys2Proof.Machine
end

