-- ==== Sys2Proof/Machine/Script.lean ====
section
/-! DEFINITION. The textual notation of command scripts (R84) and of the pseudo-commands (R85): one line of text to
the commands it stands for and the response it states. The notation is the host's; the block never sees it. -/

namespace Sys2Proof.Script

/-- The single quote that encloses a character operand. -/
def tick : Char := Char.ofNat 39

/-- The double quote that encloses a string operand. -/
def quote : Char := Char.ofNat 34

/-- Where in a line the reader stands. -/
inductive Mode where
  | plain
  | charBody
  | charEnd
  | string
deriving DecidableEq, Repr

/-- A finished token, or nothing. -/
def flush (acc : List Char) : List (List Char) := if acc = [] then [] else [acc.reverse]

/-- The tokens of a line: separated by blanks, up to a `;` outside quotes (R84). -/
def tokens (m : Mode) (acc : List Char) : List Char → List (List Char)
  | [] => flush acc
  | c :: cs =>
    match m with
    | .plain =>
      if c = ';' then flush acc
      else if c = ' ' then flush acc ++ tokens .plain [] cs
      else if c = tick then tokens .charBody (c :: acc) cs
      else if c = quote then tokens .string (c :: acc) cs
      else tokens .plain (c :: acc) cs
    | .charBody => tokens .charEnd (c :: acc) cs
    | .charEnd => tokens .plain (c :: acc) cs
    | .string => tokens (if c = quote then .plain else .string) (c :: acc) cs

/-- A printable ASCII character and its code (R84). -/
def printable (c : Char) : Option CharCode :=
  if 32 ≤ c.toNat ∧ c.toNat ≤ 126 then some (BitVec.ofNat 8 c.toNat) else none

/-- One decimal digit. -/
def decDigit (c : Char) : Option Nat :=
  if 48 ≤ c.toNat ∧ c.toNat ≤ 57 then some (c.toNat - 48) else none

/-- One hexadecimal digit, either case. -/
def hexDigit (c : Char) : Option Nat :=
  if 48 ≤ c.toNat ∧ c.toNat ≤ 57 then some (c.toNat - 48)
  else if 65 ≤ c.toNat ∧ c.toNat ≤ 70 then some (c.toNat - 55)
  else if 97 ≤ c.toNat ∧ c.toNat ≤ 102 then some (c.toNat - 87)
  else none

/-- The value of the digits `cs` in base `b` after those that gave `t`. -/
def digitsValue (b : Nat) (digit : Char → Option Nat) (t : Nat) : List Char → Option Nat
  | [] => some t
  | c :: cs =>
    match digit c with
    | some d => digitsValue b digit (b * t + d) cs
    | none => none

/-- A decimal number, or `0x` and hexadecimal digits (R84). -/
def number : List Char → Option Nat
  | [] => none
  | '0' :: 'x' :: c :: cs => digitsValue 16 hexDigit 0 (c :: cs)
  | c :: cs => digitsValue 10 decDigit 0 (c :: cs)

/-- A decimal number below `n`. -/
def decimalBelow (n : Nat) : List Char → Option Nat
  | [] => none
  | c :: cs =>
    match digitsValue 10 decDigit 0 (c :: cs) with
    | some v => if v < n then some v else none
    | none => none

/-- `<char>` of R84: a character in single quotes, or a number 0 to 255. -/
def charOperand (t : List Char) : Option CharCode :=
  match t with
  | [a, c, b] =>
    if a = tick ∧ b = tick then printable c
    else
      match number t with
      | some n => if n ≤ 255 then some (BitVec.ofNat 8 n) else none
      | none => none
  | _ =>
    match number t with
    | some n => if n ≤ 255 then some (BitVec.ofNat 8 n) else none
    | none => none

/-- `<sel>` of R84: 0, 1, 2 or a view's name. -/
def selOperand (t : List Char) : Option (BitVec 2) :=
  if t = "STATUS".toList then some 0
  else if t = "FLAGS".toList then some 1
  else if t = "GCNTR".toList then some 2
  else
    match decimalBelow 3 t with
    | some n => some (BitVec.ofNat 2 n)
    | none => none

/-- The characters of a string operand after its opening quote, up to the closing one, which ends the token. -/
def stringBody : List Char → Option (List CharCode)
  | [] => none
  | c :: cs =>
    if c = quote then if cs = [] then some [] else none
    else
      match printable c, stringBody cs with
      | some k, some ks => some (k :: ks)
      | _, _ => none

/-- A string operand in double quotes (R85). -/
def stringOperand : List Char → Option (List CharCode)
  | [] => none
  | c :: cs => if c = quote then stringBody cs else none

/-- A string operand followed by a comma (R85 `ENCODE`). -/
def stringComma (t : List Char) : Option (List CharCode) :=
  if t.getLast? = some ',' then stringOperand t.dropLast else none

/-- The command list one command or pseudo-command line stands for (R84, R85). That a line without a command, blank or
holding only a comment, is read as the empty command list is the model's choice (DESIGN CHOICE, log entry 14): R84 says
'One command per line' and does not speak of such a line. -/
def commands (ts : List (List Char)) : Option (List Instr) :=
  match ts with
  | [] => some []
  | [m] =>
    if m = "NOP".toList then some [.nop]
    else if m = "CLR".toList then some [.clr]
    else if m = "ENC".toList then some [.enc]
    else if m = "HEXALL".toList then some Machine.Pseudo.hexall.expand
    else none
  | [m, a] =>
    if m = "GCH".toList then (charOperand a).map fun c => [.gch c]
    else if m = "SCH".toList then (charOperand a).map fun c => [.sch c]
    else if m = "HEX".toList then (decimalBelow 24 a).map fun i => [.hex (BitVec.ofNat 5 i)]
    else if m = "RDS".toList then (selOperand a).map fun sel => [.rds sel]
    else if m = "GSTR".toList then (stringOperand a).map fun s => (Machine.Pseudo.gstr s).expand
    else if m = "SSTR".toList then (stringOperand a).map fun s => (Machine.Pseudo.sstr s).expand
    else none
  | [m, a, b] =>
    if m = "ENCODE".toList then
      match stringComma a, stringOperand b with
      | some g, some s => some (Machine.Pseudo.encode g s).expand
      | _, _ => none
    else none
  | _ => none

/-- A response as R76 writes it: `OK(xx)`, `ERR(c)`, `SEQ` or `ILL`. -/
def response : List Char → Option RspWord
  | ['O', 'K', '(', a, b, ')'] =>
    match hexDigit a, hexDigit b with
    | some x, some y => some (Code.ok ++ BitVec.ofNat 8 (16 * x + y))
    | _, _ => none
  | ['E', 'R', 'R', '(', a, ')'] => (decDigit a).map fun x => Code.err ++ BitVec.ofNat 8 x
  | ['S', 'E', 'Q'] => some (Code.seq ++ 0#8)
  | ['I', 'L', 'L'] => some (Code.ill ++ 0#8)
  | _ => none

/-- A script line: its commands and the response it states after `->`, if it states one (R84). -/
structure Line where
  cmds : List Instr
  expected : Option RspWord
deriving DecidableEq, Repr

/-- The tokens before `->` and, where there is one, those after it. -/
def splitArrow : List (List Char) → List (List Char) × Option (List (List Char))
  | [] => ([], none)
  | t :: ts =>
    if t = "->".toList then ([], some ts)
    else (t :: (splitArrow ts).1, (splitArrow ts).2)

/-- Read one line of a command script (R84, R85). A line with no command may state a response too (log entry 14). -/
def readLine (line : List Char) : Option Line :=
  match splitArrow (tokens .plain [] line) with
  | (ts, none) => (commands ts).map fun is => { cmds := is, expected := none }
  | (ts, some [r]) =>
    match commands ts, response r with
    | some is, some w => some { cmds := is, expected := some w }
    | _, _ => none
  | (_, some _) => none

/-- A hexadecimal digit as text. -/
def hexDigitText (n : Nat) : Char := if n ≤ 9 then Char.ofNat (48 + n) else Char.ofNat (55 + n)

/-- A decimal number below 100 as text, without leading zeros. -/
def decimalText (n : Nat) : List Char :=
  if n ≤ 9 then [hexDigitText n] else [hexDigitText (n / 10), hexDigitText (n % 10)]

/-- A character operand as the number `0xNN`. -/
def charText (c : CharCode) : List Char :=
  ['0', 'x', hexDigitText (c.toNat / 16), hexDigitText (c.toNat % 16)]

/-- The script line of a command (R84). -/
def render : Instr → List Char
  | .nop => "NOP".toList
  | .clr => "CLR".toList
  | .gch c => "GCH ".toList ++ charText c
  | .sch c => "SCH ".toList ++ charText c
  | .enc => "ENC".toList
  | .hex i => "HEX ".toList ++ decimalText i.toNat
  | .rds sel => "RDS ".toList ++ decimalText sel.toNat

end Sys2Proof.Script
end

