-- ==== Sys2Proof/Safety.lean ====
section
/-! DEFINITION. The terms in which claims speak: the invariants of R33 and what follows from them, a host that keeps
the protocol (R228), and a run of the machine. -/

namespace Sys2Proof.Machine

/-- R33 items 1 to 5. -/
abbrev Regs.Inv (r : Regs) : Prop :=
  (r.ph = 0 ∨ r.ph = 1 ∨ r.ph = 2) ∧
  (r.cause ≠ 0 ↔ r.ph = 2) ∧
  (r.ph ≠ 1 → r.epc = 0) ∧
  (r.ph = 1 → r.epc.extractLsb' 82 14 = 0b00110000001101#14 ∧ r.gbad = false ∧ r.sbad = false ∧
    r.sovf = false ∧ r.sne = true ∧ r.gcnt ≤ 14) ∧
  (∀ i : Fin 14, r.g[i] ≤ 9)

/-- In DONE, `EPC` is the code of the inputs still in the registers (R31, R33 item 8). -/
abbrev Regs.Latched (r : Regs) : Prop := r.ph = 1 → r.epc = r.code

/-- The window positions that no character has reached hold padding zeros (R23, R101). -/
abbrev Regs.Padded (r : Regs) : Prop := ∀ i : Fin 14, i.val < 14 - r.gcnt.toNat → r.g[i] = 0

/-- With no serial character executed, the serial registers are as after reset (R33 item 7). -/
abbrev Regs.SerialFresh (r : Regs) : Prop := r.sne = false → r.sacc = 0 ∧ r.sbad = false ∧ r.sovf = false

/-- A host that keeps the protocol: none of its moves is a breach of R228. -/
def HostMove.keepsProtocol : HostMove → Bool
  | .idle => true
  | .command _ => true
  | .reset => true
  | .commandThenReset _ => true
  | .changeWhileWaiting _ => false
  | .missResponse _ => false

/-- A safe state: every move the host has still to make keeps the protocol. -/
abbrev State.HostKeepsProtocol (s : State) : Prop := ∀ m ∈ s.host, m.keepsProtocol = true

/-- `n` steps of the machine from `s`, stopping at the first fault or refusal. -/
def runFrom : Nat → State → Host.Outcome State Fault Refusal
  | 0, s => .next s
  | n + 1, s =>
    match step s with
    | .next t => runFrom n t
    | .fault f => .fault f
    | .refused r => .refused r

end Sys2Proof.Machine
end

