-- ==== Sys2Proof/Certificates/Slice0/Obligations.lean ====
section
/-! DEFINITION. The statements for the provers. Each says which rule of the spec it formalises. -/

open Sys2Proof Sys2Proof.Machine

/-! ### Reset and the control commands -/

/-- R35: every register of R20 is 0 right after reset, and no response stands on the port. -/
def Obligations.ResetLeavesEveryRegisterZero : Prop :=
  State.reset.regs.ph = 0 ∧ State.reset.regs.cause = 0 ∧ (∀ i : Fin 14, State.reset.regs.g[i] = 0) ∧
  State.reset.regs.gcnt = 0 ∧ State.reset.regs.gbad = false ∧ State.reset.regs.sacc = 0 ∧
  State.reset.regs.sne = false ∧ State.reset.regs.sbad = false ∧ State.reset.regs.sovf = false ∧
  State.reset.regs.epc = 0 ∧ State.reset.rsp = none

/-- R170: in every state and phase `NOP` answers `OK(00)` and changes nothing; its only word is 0x000. -/
def Obligations.NopAnswersOkAndChangesNothing : Prop :=
  (∀ s : State, exec .nop s = .next { s with rsp := some 0x000 }) ∧
  decode 0x000 = .legal .nop ∧
  ∀ (d : BitVec 8) (s : State), d ≠ 0 → runWord (0x0#4 ++ d) s = .next { s with rsp := some 0x300 }

/-- R171: in every state and phase `CLR` zeroes every register, which is the reset state, and answers `OK(00)`;
its only word is 0x100; no other command leaves DONE or ERR; after it `HEX` answers `SEQ`. -/
def Obligations.ClrReturnsEveryRegisterToReset : Prop :=
  (∀ s : State, ∃ t, exec .clr s = .next t ∧ t.host = s.host ∧ t.rsp = some 0x000 ∧
    t.regs.ph = 0 ∧ t.regs.cause = 0 ∧ (∀ i : Fin 14, t.regs.g[i] = 0) ∧ t.regs.gcnt = 0 ∧
    t.regs.gbad = false ∧ t.regs.sacc = 0 ∧ t.regs.sne = false ∧ t.regs.sbad = false ∧
    t.regs.sovf = false ∧ t.regs.epc = 0 ∧ t.regs = State.reset.regs) ∧
  decode 0x100 = .legal .clr ∧
  (∀ (d : BitVec 8) (s : State), d ≠ 0 → runWord (0x1#4 ++ d) s = .next { s with rsp := some 0x300 }) ∧
  (∀ (i : Instr) (s t : State), s.regs.ph ≠ 0 → exec i s = .next t → t.regs.ph ≠ s.regs.ph → i = .clr) ∧
  ∀ (i : BitVec 5) (s t : State), i ≤ 23 → exec .clr s = .next t →
    exec (.hex i) t = .next { t with rsp := some 0x200 }

/-- R172 with the layouts of R32: `RDS sel` answers the selected view in every phase and changes no register;
selector 3 and a nonzero `data[7:2]` are illegal. -/
def Obligations.RdsReturnsTheSelectedView : Prop :=
  (∀ s : State, ∃ v : BitVec 8, exec (.rds 0) s = .next { s with rsp := some (0b00#2 ++ v) } ∧
    v.toNat = s.regs.cause.toNat * 4 + (if s.regs.ph = 2 then 2 else 0) + (if s.regs.ph = 1 then 1 else 0)) ∧
  (∀ s : State, ∃ v : BitVec 8, exec (.rds 1) s = .next { s with rsp := some (0b00#2 ++ v) } ∧
    v.toNat = (if s.regs.gcnt = 15 then 16 else 0) + (if s.regs.sovf = true then 8 else 0) +
      (if s.regs.sne = true then 4 else 0) + (if s.regs.sbad = true then 2 else 0) +
      (if s.regs.gbad = true then 1 else 0)) ∧
  (∀ s : State, ∃ v : BitVec 8, exec (.rds 2) s = .next { s with rsp := some (0b00#2 ++ v) } ∧
    v.toNat = s.regs.gcnt.toNat) ∧
  decode 0x600 = .legal (.rds 0) ∧ decode 0x601 = .legal (.rds 1) ∧ decode 0x602 = .legal (.rds 2) ∧
  ∀ (d : BitVec 8) (s : State), 2 < d.toNat → runWord (0x6#4 ++ d) s = .next { s with rsp := some 0x300 }

/-! ### The parser -/

/-- R101: `GCH c` in COLLECT, for every character: the window takes a digit only while `GCNT` < 14, a non-digit sets
`GBAD`, `GCNT` saturates at 15, the answer is `OK(00)`, every other register keeps its value; in another phase it
answers `SEQ`. -/
def Obligations.GchPushesOneGtinCharacter : Prop :=
  (∀ (c : CharCode) (s : State), s.regs.ph = 0 → ∃ t, exec (.gch c) s = .next t ∧
    t.host = s.host ∧ t.rsp = some 0x000 ∧
    ((0x30 ≤ c ∧ c ≤ 0x39 ∧ s.regs.gcnt < 14) →
      (∀ i : Fin 13, t.regs.g[i.val] = s.regs.g[i.val + 1]) ∧ t.regs.g[13].toNat = c.toNat - 0x30) ∧
    (¬(0x30 ≤ c ∧ c ≤ 0x39 ∧ s.regs.gcnt < 14) → t.regs.g = s.regs.g) ∧
    ((0x30 ≤ c ∧ c ≤ 0x39) → t.regs.gbad = s.regs.gbad) ∧
    (¬(0x30 ≤ c ∧ c ≤ 0x39) → t.regs.gbad = true) ∧
    t.regs.gcnt.toNat = min (s.regs.gcnt.toNat + 1) 15 ∧
    t.regs.ph = s.regs.ph ∧ t.regs.cause = s.regs.cause ∧ t.regs.sacc = s.regs.sacc ∧
    t.regs.sne = s.regs.sne ∧ t.regs.sbad = s.regs.sbad ∧ t.regs.sovf = s.regs.sovf ∧
    t.regs.epc = s.regs.epc) ∧
  (∀ (c : CharCode) (s : State), s.regs.ph ≠ 0 → exec (.gch c) s = .next { s with rsp := some 0x200 }) ∧
  ∀ c : CharCode, decode (0x200 ||| c.setWidth 12) = .legal (.gch c)

/-- R104: `SCH c` in COLLECT, for every character: `SNE` is set; a digit gives `t = SACC * 10 + dval(c)`, `SACC` the
residue modulo 2^38 and `SOVF` set when `t >= 2^38`; a non-digit sets `SBAD` and leaves `SACC` and `SOVF`; the answer
is `OK(00)`, every other register keeps its value; in another phase it answers `SEQ`. -/
def Obligations.SchAccumulatesOneSerialCharacter : Prop :=
  (∀ (c : CharCode) (s : State), s.regs.ph = 0 → ∃ t, exec (.sch c) s = .next t ∧
    t.host = s.host ∧ t.rsp = some 0x000 ∧ t.regs.sne = true ∧
    ((0x30 ≤ c ∧ c ≤ 0x39) →
      t.regs.sacc.toNat = (s.regs.sacc.toNat * 10 + (c.toNat - 0x30)) % 274877906944 ∧
      (t.regs.sovf = true ↔ s.regs.sovf = true ∨ 274877906944 ≤ s.regs.sacc.toNat * 10 + (c.toNat - 0x30)) ∧
      t.regs.sbad = s.regs.sbad) ∧
    (¬(0x30 ≤ c ∧ c ≤ 0x39) →
      t.regs.sbad = true ∧ t.regs.sacc = s.regs.sacc ∧ t.regs.sovf = s.regs.sovf) ∧
    t.regs.ph = s.regs.ph ∧ t.regs.cause = s.regs.cause ∧ t.regs.g = s.regs.g ∧ t.regs.gcnt = s.regs.gcnt ∧
    t.regs.gbad = s.regs.gbad ∧ t.regs.epc = s.regs.epc) ∧
  (∀ (c : CharCode) (s : State), s.regs.ph ≠ 0 → exec (.sch c) s = .next { s with rsp := some 0x200 }) ∧
  ∀ c : CharCode, decode (0x300 ||| c.setWidth 12) = .legal (.sch c)


/-- R102, R103: the two fields as sums of digits, and their ranges when every digit is at most 9. -/
def Obligations.ParsedFieldsAreDecimalAndFit : Prop :=
  ∀ g : Window,
    (cpval g).toNat = g[1].toNat * 1000000 + g[2].toNat * 100000 + g[3].toNat * 10000 + g[4].toNat * 1000 +
      g[5].toNat * 100 + g[6].toNat * 10 + g[7].toNat ∧
    (irval g).toNat = g[8].toNat * 10000 + g[9].toNat * 1000 + g[10].toNat * 100 + g[11].toNat * 10 +
      g[12].toNat ∧
    ((∀ i : Fin 14, g[i] ≤ 9) → (cpval g).toNat ≤ 9999999 ∧ (irval g).toNat ≤ 99999)


/-- R107: `GCH` touches only `G`, `GCNT`, `GBAD` and `SCH` only `SACC`, `SNE`, `SBAD`, `SOVF`, so any two command lists of
pushes, `NOP` and `RDS` with the same GTIN string and the same serial string lead to the same registers, from every state. -/
def Obligations.InterleavingOfPushesDoesNotMatter : Prop :=
  (∀ (c : CharCode) (s t : State), exec (.gch c) s = .next t →
    t.regs = { s.regs with g := t.regs.g, gcnt := t.regs.gcnt, gbad := t.regs.gbad }) ∧
  (∀ (c : CharCode) (s t : State), exec (.sch c) s = .next t →
    t.regs = { s.regs with sacc := t.regs.sacc, sne := t.regs.sne, sbad := t.regs.sbad, sovf := t.regs.sovf }) ∧
  ∀ (cs cs' : List Instr) (s : State), (∀ c ∈ cs, fillsTransaction c = true) →
    (∀ c ∈ cs', fillsTransaction c = true) → gtinChars cs = gtinChars cs' → serialChars cs = serialChars cs' →
    ∃ rs rs' t t', exchange (wordsOf cs) s = some (rs, t) ∧ exchange (wordsOf cs') s = some (rs', t') ∧
      t.regs = t'.regs

/-- R33 item 6: after any transaction prefix from the reset registers, `GCNT` is the number of GTIN characters
saturated at 15, `GBAD` says that one was no digit, and a digit string of at most 14 stands in the window left-padded
with zeros. -/
def Obligations.GtinRegistersTrackThePushedString : Prop :=
  ∀ (cs : List Instr) (s : State), (∀ c ∈ cs, fillsTransaction c = true) → s.regs = Regs.reset →
    ∃ rs t, exchange (wordsOf cs) s = some (rs, t) ∧ rs.length = cs.length ∧
      t.regs.gcnt.toNat = min (gtinChars cs).length 15 ∧
      t.regs.gbad = (gtinChars cs).any (fun c => !Reference.isDigit c) ∧
      ((gtinChars cs).length ≤ 14 → (gtinChars cs).all Reference.isDigit = true →
        t.regs.g.toList.map BitVec.toNat = (Reference.padded (gtinChars cs)).map Reference.digit)

/-- R33 item 7: after any transaction prefix from the reset registers, `SNE`, `SBAD`, `SACC` and `SOVF` say whether the
serial string is non-empty, holds a non-digit, and what the value of its digits is modulo 2^38 and against 2^38. -/
def Obligations.SerialRegistersTrackThePushedString : Prop :=
  ∀ (cs : List Instr) (s : State), (∀ c ∈ cs, fillsTransaction c = true) → s.regs = Regs.reset →
    ∃ rs t, exchange (wordsOf cs) s = some (rs, t) ∧ rs.length = cs.length ∧
      t.regs.sne = decide (1 ≤ (serialChars cs).length) ∧
      t.regs.sbad = (serialChars cs).any (fun c => !Reference.isDigit c) ∧
      t.regs.sacc.toNat = Reference.decimal ((serialChars cs).filter Reference.isDigit) % 2 ^ 38 ∧
      (t.regs.sovf = true ↔ 2 ^ 38 ≤ Reference.decimal ((serialChars cs).filter Reference.isDigit))

/-! ### The packer and the error mechanism -/

/-- R131: each field of `pack96` reads back from its bits, and the value is the shift-and-OR of the six fields. -/
def Obligations.PackPlacesEachFieldInItsBits : Prop :=
  ∀ (cp : CompanyPrefix) (ir : ItemRef) (sn : Serial),
    (pack96 cp ir sn).extractLsb' 88 8 = 0x30#8 ∧ (pack96 cp ir sn).extractLsb' 85 3 = 1#3 ∧
    (pack96 cp ir sn).extractLsb' 82 3 = 5#3 ∧ (pack96 cp ir sn).extractLsb' 58 24 = cp ∧
    (pack96 cp ir sn).extractLsb' 38 20 = ir ∧ (pack96 cp ir sn).extractLsb' 0 38 = sn ∧
    (pack96 cp ir sn).toNat =
      (0x30 <<< 88) ||| (1 <<< 85) ||| (5 <<< 82) ||| (cp.toNat <<< 58) ||| (ir.toNat <<< 38) ||| sn.toNat

/-- R195: the reported cause, highest priority first; and every condition stays visible in `FLAGS` and `GCNTR` after the
`ENC`, whatever the cause. -/
def Obligations.EncCausePriority : Prop :=
  (∀ s t : State, exec .enc s = .next t → viewOf 1 t.regs = viewOf 1 s.regs ∧ viewOf 2 t.regs = viewOf 2 s.regs) ∧
  ∀ (gcnt : BitVec 4) (gbad sbad sne sovf : Bool),
    (gcnt = 15 → encCause gcnt gbad sbad sne sovf = 3) ∧
    (gcnt ≠ 15 → (gbad = true ∨ sbad = true ∨ sne = false) → encCause gcnt gbad sbad sne sovf = 1) ∧
    (gcnt ≠ 15 → gbad = false → sbad = false → sne = true → sovf = true →
      encCause gcnt gbad sbad sne sovf = 2) ∧
    (gcnt ≠ 15 → gbad = false → sbad = false → sne = true → sovf = false →
      encCause gcnt gbad sbad sne sovf = 0)

/-- R133 (success): in COLLECT with at most 14 GTIN characters, no non-digit, a non-empty serial and no overflow, `ENC`
latches the code of the digits 1 to 7, the digits 8 to 12 and the serial, goes to DONE and answers `OK(00)`; every
other register keeps its value. -/
def Obligations.EncLatchesTheCodeOfValidInputs : Prop :=
  ∀ s : State, s.regs.ph = 0 → s.regs.gcnt ≠ 15 → s.regs.gbad = false → s.regs.sbad = false →
    s.regs.sne = true → s.regs.sovf = false →
    ∃ v : Epc96, exec .enc s = .next { s with regs := { s.regs with epc := v, ph := 1 }, rsp := some 0x000 } ∧
      v.toNat = 0x30 * 2 ^ 88 + 1 * 2 ^ 85 + 5 * 2 ^ 82 +
        (s.regs.g[1].toNat * 1000000 + s.regs.g[2].toNat * 100000 + s.regs.g[3].toNat * 10000 +
          s.regs.g[4].toNat * 1000 + s.regs.g[5].toNat * 100 + s.regs.g[6].toNat * 10 +
          s.regs.g[7].toNat) * 2 ^ 58 +
        (s.regs.g[8].toNat * 10000 + s.regs.g[9].toNat * 1000 + s.regs.g[10].toNat * 100 +
          s.regs.g[11].toNat * 10 + s.regs.g[12].toNat) * 2 ^ 38 +
        s.regs.sacc.toNat

/-- R196 with the conditions of R190 and R195: in COLLECT with an error condition, `ENC` writes `PH` and `CAUSE`, answers
`ERR(cause)` and writes nothing else; outside COLLECT it answers `SEQ`. -/
def Obligations.EncRaisesTheErrorOfInvalidInputs : Prop :=
  (∀ s : State, s.regs.ph = 0 → s.regs.gcnt = 15 →
    exec .enc s = .next { s with regs := { s.regs with ph := 2, cause := 3 }, rsp := some 0x103 }) ∧
  (∀ s : State, s.regs.ph = 0 → s.regs.gcnt ≠ 15 →
    (s.regs.gbad = true ∨ s.regs.sbad = true ∨ s.regs.sne = false) →
    exec .enc s = .next { s with regs := { s.regs with ph := 2, cause := 1 }, rsp := some 0x101 }) ∧
  (∀ s : State, s.regs.ph = 0 → s.regs.gcnt ≠ 15 → s.regs.gbad = false → s.regs.sbad = false →
    s.regs.sne = true → s.regs.sovf = true →
    exec .enc s = .next { s with regs := { s.regs with ph := 2, cause := 2 }, rsp := some 0x102 }) ∧
  (∀ s : State, s.regs.ph ≠ 0 → exec .enc s = .next { s with rsp := some 0x200 }) ∧
  decode 0x400 = .legal .enc

/-- R134: in a state with the register invariant and the latched code, DONE holds a code between the smallest and the
largest the block can produce. -/
def Obligations.LatchedCodeStaysInItsRange : Prop :=
  ∀ s : State, s.regs.Inv → s.regs.Latched → s.regs.ph = 1 →
    0x303400000000000000000000 ≤ s.regs.epc ∧ s.regs.epc ≤ 0x30366259FC61A7FFFFFFFFFF

/-- R23, R102, R103: two states that differ only in the indicator digit `G[0]`, the check digit `G[13]` and the response
port get the same answer, the same code, the same phase and the same cause from `ENC`. -/
def Obligations.IndicatorAndCheckDigitAreIgnored : Prop :=
  ∀ s s' : State, (∀ i : Fin 14, i.val ≠ 0 → i.val ≠ 13 → s.regs.g[i] = s'.regs.g[i]) →
    s.regs = { s'.regs with g := s.regs.g } →
    ∃ t t', exec .enc s = .next t ∧ exec .enc s' = .next t' ∧ t.rsp = t'.rsp ∧ t.regs.epc = t'.regs.epc ∧
      t.regs.ph = t'.regs.ph ∧ t.regs.cause = t'.regs.cause

/-! ### The hex formatter -/

/-- R153 with R151 and R152: in DONE `HEX i` answers the uppercase hexadecimal character of `EPC[95-4i : 92-4i]` and
changes no register; in another phase `SEQ`; an index above 23 or a nonzero `data[7:5]` is illegal. -/
def Obligations.HexReturnsOneCharacter : Prop :=
  (∀ (i : BitVec 5) (s : State), i ≤ 23 → s.regs.ph = 1 →
    ∃ ch : CharCode, exec (.hex i) s = .next { s with rsp := some (0b00#2 ++ ch) } ∧
      ch.toNat = (if s.regs.epc.toNat / 16 ^ (23 - i.toNat) % 16 ≤ 9
        then 0x30 + s.regs.epc.toNat / 16 ^ (23 - i.toNat) % 16
        else 0x41 + (s.regs.epc.toNat / 16 ^ (23 - i.toNat) % 16 - 10))) ∧
  (∀ (i : BitVec 5) (s : State), i ≤ 23 → s.regs.ph ≠ 1 →
    exec (.hex i) s = .next { s with rsp := some 0x200 }) ∧
  (∀ i : BitVec 5, i ≤ 23 → decode (0x500 ||| i.setWidth 12) = .legal (.hex i)) ∧
  ∀ (d : BitVec 8) (s : State), 23 < d.toNat → runWord (0x5#4 ++ d) s = .next { s with rsp := some 0x300 }

/-- R155: the string has 24 characters, each in '0'..'9' or 'A'..'F', and determines the value. -/
def Obligations.HexstrIsUppercaseAndDeterminesTheValue : Prop :=
  (∀ v : Epc96, (hexstr v).length = 24 ∧
    ∀ ch ∈ hexstr v, (0x30 ≤ ch ∧ ch ≤ 0x39) ∨ (0x41 ≤ ch ∧ ch ≤ 0x46)) ∧
  ∀ v v' : Epc96, hexstr v = hexstr v' → v = v'

/-- R85 `HEXALL`, R155: in DONE the 24 reads answer `OK` with the characters of `hexstr(EPC)` in order and leave the
registers as they were. -/
def Obligations.HexAllReadsTheWholeString : Prop :=
  ∀ s : State, s.regs.ph = 1 → ∃ t,
    exchange (wordsOf hexAll) s = some ((hexstr s.regs.epc).map (fun ch => 0b00#2 ++ ch), t) ∧
    t.regs = s.regs ∧ t.host = s.host

/-- R153, R57: in DONE the first three characters are '3', '0', '3' and the fourth is '4', '5' or '6', whatever the inputs
were. -/
def Obligations.FirstCharactersAreFixed : Prop :=
  ∀ s : State, s.regs.Inv → s.regs.Latched → s.regs.ph = 1 →
    exec (.hex 0) s = .next { s with rsp := some 0x033 } ∧
    exec (.hex 1) s = .next { s with rsp := some 0x030 } ∧
    exec (.hex 2) s = .next { s with rsp := some 0x033 } ∧
    (exec (.hex 3) s = .next { s with rsp := some 0x034 } ∨ exec (.hex 3) s = .next { s with rsp := some 0x035 } ∨
      exec (.hex 3) s = .next { s with rsp := some 0x036 })

/-! ### Encoding, legality and phases -/

/-- D6 of spec/95_test_vectors.md: words written out from R70 and R72 (`op` in bits 11:8, `data` in bits 7:0). -/
def Obligations.SampleWordsDecode : Prop :=
  decode 0b0000_00000000 = .legal .nop ∧ decode 0b0001_00000000 = .legal .clr ∧
  decode 0b0010_00110101 = .legal (.gch 0x35) ∧ decode 0b0011_00111001 = .legal (.sch 0x39) ∧
  decode 0b0100_00000000 = .legal .enc ∧ decode 0b0101_00010111 = .legal (.hex 23) ∧
  decode 0b0110_00000010 = .legal (.rds 2) ∧ decode 0b0101_00011000 = .illegal .hexIndexOutOfRange ∧
  decode 0b0101_00100000 = .illegal .hexIndexOutOfRange ∧ decode 0b0110_00000011 = .illegal .selectorOutOfRange ∧
  decode 0b0100_00000001 = .illegal .nonzeroData ∧ decode 0b0111_00000000 = .illegal .reservedOpcode

/-- R75: which words are which command, over all 4096 words. -/
def Obligations.DecodeFollowsTheOpcodeMap : Prop :=
  ∀ w : CmdWord,
    (decode w = .legal .nop ↔ w = 0x000) ∧ (decode w = .legal .clr ↔ w = 0x100) ∧
    (∀ c : CharCode, decode w = .legal (.gch c) ↔ w = 0x2#4 ++ c) ∧
    (∀ c : CharCode, decode w = .legal (.sch c) ↔ w = 0x3#4 ++ c) ∧
    (decode w = .legal .enc ↔ w = 0x400) ∧
    (∀ i : BitVec 5, decode w = .legal (.hex i) ↔ w = 0x5#4 ++ 0b000#3 ++ i ∧ i ≤ 23) ∧
    (∀ sel : BitVec 2, decode w = .legal (.rds sel) ↔ w = 0x6#4 ++ 0b000000#6 ++ sel ∧ sel ≤ 2)

/-- R75 'Counts, as a check for a decoder': 542 of the 4096 words are legal, and R79's four classes have 2304, 765, 232
and 253 words. -/
def Obligations.LegalAndIllegalWordCounts : Prop :=
  ((List.range 4096).countP fun n => decode (BitVec.ofNat 12 n) == .illegal .reservedOpcode) = 2304 ∧
  ((List.range 4096).countP fun n => decode (BitVec.ofNat 12 n) == .illegal .nonzeroData) = 765 ∧
  ((List.range 4096).countP fun n => decode (BitVec.ofNat 12 n) == .illegal .hexIndexOutOfRange) = 232 ∧
  ((List.range 4096).countP fun n => decode (BitVec.ofNat 12 n) == .illegal .selectorOutOfRange) = 253 ∧
  ((List.range 4096).countP fun n => match decode (BitVec.ofNat 12 n) with
    | .legal _ => true
    | .illegal _ => false) = 542

/-- Decoding the word of a well-formed command gives that command, with every operand at every value. -/
def Obligations.DecodeOfEncodeIsTheCommand : Prop :=
  ∀ i : Instr, WellFormed i → decode (encode i) = .legal i

/-- A legal word is the word of the command it decodes to, and that command is well-formed: no bit of a word is
dropped. -/
def Obligations.EncodeOfDecodeIsTheWord : Prop :=
  ∀ (w : CmdWord) (i : Instr), decode w = .legal i → WellFormed i ∧ encode i = w

/-- R84: the script line of a well-formed command reads back as that command. The line is written in one of the forms R84
allows; the details of the notation are log entry 14. -/
def Obligations.ScriptLineOfACommandReadsBack : Prop :=
  ∀ i : Instr, WellFormed i → Script.readLine (Script.render i) = some { cmds := [i], expected := none }

/-- R79: the illegal words are exactly the four classes, each answered `ILL(00)` in every phase with no register
written. -/
def Obligations.IllegalWordsAnswerIll : Prop :=
  ∀ w : CmdWord,
    ((∃ why, decode w = .illegal why) ↔
      (7 ≤ w.toNat / 256 ∨
        ((w.toNat / 256 = 0 ∨ w.toNat / 256 = 1 ∨ w.toNat / 256 = 4) ∧ w.toNat % 256 ≠ 0) ∨
        (w.toNat / 256 = 5 ∧ (w.toNat % 256 / 32 ≠ 0 ∨ 24 ≤ w.toNat % 32)) ∨
        (w.toNat / 256 = 6 ∧ (w.toNat % 256 / 4 ≠ 0 ∨ w.toNat % 4 = 3)))) ∧
    ((∃ why, decode w = .illegal why) → ∀ (s : State) (rest : List HostMove),
      step { s with host := .command w :: rest } = .next { s with host := rest, rsp := some 0x300 })

/-- R80: the table of phases. A well-formed command outside its phases answers `SEQ(00)` and writes no register; inside
them it is executed, so it answers `OK` or, for `ENC`, `ERR`. -/
def Obligations.PhaseLegalityTable : Prop :=
  ∀ (i : Instr) (s : State), WellFormed i →
    ((match i with
      | .nop => True
      | .clr => True
      | .rds _ => True
      | .gch _ => s.regs.ph = 0
      | .sch _ => s.regs.ph = 0
      | .enc => s.regs.ph = 0
      | .hex _ => s.regs.ph = 1) →
      ∃ t r, exec i s = .next t ∧ t.rsp = some r ∧
        (r.extractLsb' 8 2 = 0 ∨ (r.extractLsb' 8 2 = 1 ∧ i = .enc))) ∧
    (¬(match i with
      | .nop => True
      | .clr => True
      | .rds _ => True
      | .gch _ => s.regs.ph = 0
      | .sch _ => s.regs.ph = 0
      | .enc => s.regs.ph = 0
      | .hex _ => s.regs.ph = 1) →
      exec i s = .next { s with rsp := some 0x200 })

/-- R81: a step on a command word first checks its legality (`ILL`), then the phase (`SEQ`), and otherwise runs exactly the
decoded command. The last clause is the model's choice (log entries 1 and 4): a step on a word placed by `withFetchWord`
runs the command the decoder reads from it. -/
def Obligations.StepRunsTheDecodedCommand : Prop :=
  (∀ (s : State) (w : CmdWord) (rest : List HostMove) (i : Instr), decode w = .legal i →
    step { s with host := .command w :: rest } = exec i { s with host := rest }) ∧
  (∀ (s : State) (w : CmdWord) (rest : List HostMove) (why : IllegalWord), decode w = .illegal why →
    step { s with host := .command w :: rest } = .next { s with host := rest, rsp := some 0x300 }) ∧
  (∀ (s : State) (w : CmdWord) (rest : List HostMove) (i : Instr), decode w = .legal i →
    allowed i s.regs.ph = false →
    step { s with host := .command w :: rest } = .next { s with host := rest, rsp := some 0x200 }) ∧
  (∀ (s : State) (nbits w : Nat) (i : Instr), decodeTableWord nbits w = some i →
    step (s.withFetchWord nbits w) = exec i s)

/-- R76, R79: every one of the 4096 words, in every state, has a next state and exactly one response. -/
def Obligations.EveryWordGetsOneResponse : Prop :=
  ∀ (s : State) (w : CmdWord), ∃ t r, step (s.offer w) = .next t ∧ t.rsp = some r ∧ t.host = s.host

/-- R36, R77, R205: a command answered `SEQ` or `ILL` has written no register. -/
def Obligations.RefusalsWriteNothing : Prop :=
  ∀ (s t : State) (w : CmdWord) (r : RspWord), step (s.offer w) = .next t → t.rsp = some r →
    (r.extractLsb' 8 2 = 2 ∨ r.extractLsb' 8 2 = 3) → t.regs = s.regs ∧ r.extractLsb' 0 8 = 0

/-- R77 '`ERR` is produced by `ENC` only': an `ERR` answer comes from the word 0x400 in COLLECT, carries the nonzero
cause it wrote, and leaves the phase ERR. -/
def Obligations.ErrResponsesComeFromEncOnly : Prop :=
  ∀ (s t : State) (w : CmdWord) (r : RspWord), step (s.offer w) = .next t → t.rsp = some r →
    r.extractLsb' 8 2 = 1 →
    w = 0x400 ∧ s.regs.ph = 0 ∧ t.regs.ph = 2 ∧ t.regs.cause ≠ 0 ∧
      r.extractLsb' 0 8 = t.regs.cause.setWidth 8 ∧ t.regs.epc = s.regs.epc

/-- R37: what each command may write. Every register outside its row keeps its value, and the host's remaining moves
are untouched. -/
def Obligations.EveryCommandKeepsItsFrame : Prop :=
  (∀ s t : State, exec .nop s = .next t → t.regs = s.regs ∧ t.host = s.host) ∧
  (∀ (i : BitVec 5) (s t : State), exec (.hex i) s = .next t → t.regs = s.regs ∧ t.host = s.host) ∧
  (∀ (sel : BitVec 2) (s t : State), exec (.rds sel) s = .next t → t.regs = s.regs ∧ t.host = s.host) ∧
  (∀ (c : CharCode) (s t : State), exec (.gch c) s = .next t →
    t.regs = { s.regs with g := t.regs.g, gcnt := t.regs.gcnt, gbad := t.regs.gbad } ∧ t.host = s.host) ∧
  (∀ (c : CharCode) (s t : State), exec (.sch c) s = .next t →
    t.regs = { s.regs with sacc := t.regs.sacc, sne := t.regs.sne, sbad := t.regs.sbad, sovf := t.regs.sovf } ∧
      t.host = s.host) ∧
  (∀ s t : State, exec .enc s = .next t →
    t.regs = { s.regs with ph := t.regs.ph, cause := t.regs.cause, epc := t.regs.epc } ∧ t.host = s.host) ∧
  (∀ s t : State, exec .clr s = .next t → t.host = s.host)

/-- R37: what each command may read. Two states that agree on the registers of a command's `R` entries get the same
answer from it. -/
def Obligations.EveryCommandReadsOnlyItsRegisters : Prop :=
  ∀ s s' : State, ∀ t t' : State,
    (exec .nop s = .next t → exec .nop s' = .next t' → t.rsp = t'.rsp) ∧
    (exec .clr s = .next t → exec .clr s' = .next t' → t.rsp = t'.rsp ∧ t.regs = t'.regs) ∧
    (∀ c, s.regs.ph = s'.regs.ph → s.regs.g = s'.regs.g → s.regs.gcnt = s'.regs.gcnt →
      exec (.gch c) s = .next t → exec (.gch c) s' = .next t' →
      t.rsp = t'.rsp ∧ t.regs.g = t'.regs.g ∧ t.regs.gcnt = t'.regs.gcnt) ∧
    (∀ c, s.regs.ph = s'.regs.ph → s.regs.sacc = s'.regs.sacc → s.regs.sovf = s'.regs.sovf →
      exec (.sch c) s = .next t → exec (.sch c) s' = .next t' →
      t.rsp = t'.rsp ∧ t.regs.sacc = t'.regs.sacc ∧ t.regs.sovf = t'.regs.sovf) ∧
    (s.regs.ph = s'.regs.ph → (∀ i : Fin 14, i.val ≠ 0 → i.val ≠ 13 → s.regs.g[i] = s'.regs.g[i]) →
      s.regs.gcnt = s'.regs.gcnt → s.regs.gbad = s'.regs.gbad → s.regs.sacc = s'.regs.sacc →
      s.regs.sne = s'.regs.sne → s.regs.sbad = s'.regs.sbad → s.regs.sovf = s'.regs.sovf →
      exec .enc s = .next t → exec .enc s' = .next t' →
      t.rsp = t'.rsp ∧ t.regs.ph = t'.regs.ph ∧ (s.regs.ph = 0 → t.regs.ph = 1 → t.regs.epc = t'.regs.epc) ∧
        (s.regs.ph = 0 → t.regs.ph = 2 → t.regs.cause = t'.regs.cause)) ∧
    (∀ i, s.regs.ph = s'.regs.ph → s.regs.epc = s'.regs.epc →
      exec (.hex i) s = .next t → exec (.hex i) s' = .next t' → t.rsp = t'.rsp) ∧
    (∀ sel, s.regs.ph = s'.regs.ph → s.regs.cause = s'.regs.cause → s.regs.gcnt = s'.regs.gcnt →
      s.regs.gbad = s'.regs.gbad → s.regs.sne = s'.regs.sne → s.regs.sbad = s'.regs.sbad →
      s.regs.sovf = s'.regs.sovf →
      exec (.rds sel) s = .next t → exec (.rds sel) s' = .next t' → t.rsp = t'.rsp)

/-! ### Invariants and whole-machine rules -/

/-- R33 items 1 to 5, the latched code, the padding and the fresh serial registers hold of the reset registers. -/
def Obligations.InvariantsHoldAtReset : Prop :=
  State.reset.regs.Inv ∧ State.reset.regs.Latched ∧ State.reset.regs.Padded ∧ State.reset.regs.SerialFresh

/-- R33 items 1 to 5: every step keeps them, whatever the host's move. -/
def Obligations.EveryStepKeepsTheRegisterInvariant : Prop :=
  ∀ s t : State, s.regs.Inv → step s = .next t → t.regs.Inv

/-- R31, R33 item 8: every step keeps 'in DONE, `EPC` is the code of the inputs in the registers'. -/
def Obligations.EveryStepKeepsTheLatchedCode : Prop :=
  ∀ s t : State, s.regs.Latched → step s = .next t → t.regs.Latched

/-- R23, R101: every step keeps 'the positions no character has reached hold 0', so the digit a `GCH` shifts out of
`G[0]` is a padding zero. -/
def Obligations.EveryStepKeepsThePadding : Prop :=
  (∀ s t : State, s.regs.Padded → step s = .next t → t.regs.Padded) ∧
  (∀ s : State, s.regs.Padded → s.regs.gcnt < 14 → s.regs.g[0] = 0)

/-- R33 item 7: every step keeps 'with no serial character executed, `SACC`, `SBAD` and `SOVF` are 0'. -/
def Obligations.EveryStepKeepsTheFreshSerial : Prop :=
  ∀ s t : State, s.regs.SerialFresh → step s = .next t → t.regs.SerialFresh

/-- R172 'Corner cases': with the register invariant, `STATUS` takes only the values 0x00, 0x01, 0x06, 0x0A, 0x0E. -/
def Obligations.StatusTakesFiveValues : Prop :=
  ∀ s : State, s.regs.Inv → ∃ v : BitVec 8, exec (.rds 0) s = .next { s with rsp := some (0b00#2 ++ v) } ∧
    ((s.regs.ph = 0 ∧ v = 0x00) ∨ (s.regs.ph = 1 ∧ v = 0x01) ∨
      (s.regs.ph = 2 ∧ ((s.regs.cause = 1 ∧ v = 0x06) ∨ (s.regs.cause = 2 ∧ v = 0x0A) ∨
        (s.regs.cause = 3 ∧ v = 0x0E))))

/-- R176: a step changes the phase only by a reset, by `CLR`, or by `ENC` in COLLECT, to the phase and with the other
effects of the table; and each of these arcs is taken. -/
def Obligations.PhaseChangesOnlyByTheTable : Prop :=
  (∀ s : State, ∃ t, step (s.offer 0x100) = .next t ∧ t.regs = State.reset.regs) ∧
  (∀ (s : State) (rest : List HostMove), ∃ t, step { s with host := .reset :: rest } = .next t ∧
    t.regs = State.reset.regs) ∧
  (∀ s : State, s.regs.ph = 0 → s.regs.encCause = 0 →
    ∃ t, step (s.offer 0x400) = .next t ∧ t.regs.ph = 1 ∧ t.regs.epc = s.regs.code) ∧
  (∀ s : State, s.regs.ph = 0 → s.regs.encCause ≠ 0 →
    ∃ t, step (s.offer 0x400) = .next t ∧ t.regs.ph = 2 ∧ t.regs.cause = s.regs.encCause) ∧
  ∀ s t : State, step s = .next t → t.regs.ph ≠ s.regs.ph →
    (t.regs = State.reset.regs ∧ ∃ m rest, s.host = m :: rest ∧
      (m = .reset ∨ (∃ w, m = .commandThenReset w) ∨ m = .command 0x100)) ∨
    (s.regs.ph = 0 ∧ (∃ rest, s.host = .command 0x400 :: rest) ∧
      ((s.regs.encCause = 0 ∧ t.regs.ph = 1 ∧ t.regs.epc = s.regs.code) ∨
       (s.regs.encCause ≠ 0 ∧ t.regs.ph = 2 ∧ t.regs.cause = s.regs.encCause)))

/-- R22, R31, R199: in DONE and in ERR no sequence of command words without `CLR` changes any register, so the result
and the cause stay what `ENC` made them; each word is still answered. -/
def Obligations.RegistersAreFrozenAfterEncUntilClr : Prop :=
  ∀ (ws : List CmdWord) (s : State), (s.regs.ph = 1 ∨ s.regs.ph = 2) → 0x100 ∉ ws →
    ∃ rs t, exchange ws s = some (rs, t) ∧ rs.length = ws.length ∧ t.regs = s.regs ∧ t.host = s.host

/-- R34: the responses to a command sequence and the registers after it depend on the registers alone, not on what stood
on the response port or on the host's later moves. -/
def Obligations.ResponsesDependOnTheRegistersOnly : Prop :=
  ∀ (ws : List CmdWord) (s s' : State), s.regs = s'.regs →
    ∃ rs t t', exchange ws s = some (rs, t) ∧ exchange ws s' = some (rs, t') ∧ t.regs = t'.regs

/-- R171, R177: after `CLR` nothing of the earlier transactions remains: any two states answer every later command
sequence alike. -/
def Obligations.AfterClrNothingRemains : Prop :=
  ∀ (ws : List CmdWord) (s s' : State),
    ∃ rs t t', exchange (0x100 :: ws) s = some (rs, t) ∧ exchange (0x100 :: ws) s' = some (rs, t') ∧
      t.regs = t'.regs

/-- R220, R224: a reset pulse, with or without a command in flight, gives the reset registers and no response. That a
command and the reset that abandons it are one move of the host is the model's choice (log entry 15). -/
def Obligations.ResetMoveClearsTheBlock : Prop :=
  ∀ (s : State) (rest : List HostMove) (w : CmdWord),
    step { s with host := .reset :: rest } = .next { regs := State.reset.regs, host := rest, rsp := none } ∧
    step { s with host := .commandThenReset w :: rest } =
      .next { regs := State.reset.regs, host := rest, rsp := none }

/-- With no command offered the registers stay as they are and no response is presented. The model's choice (log entry
2): a step with no host move left, or on the move `idle`, stands for a stretch of idle cycles; R227 says only that
`rsp_valid` is 0 at all times but the cycle of a response. -/
def Obligations.IdleCyclesChangeNothing : Prop :=
  (∀ s : State, s.host = [] → step s = .next { s with rsp := none }) ∧
  ∀ (s : State) (rest : List HostMove),
    step { s with host := .idle :: rest } = .next { s with host := rest, rsp := none }

/-- R228: a host that breaks the port protocol is outside the spec; that the model stops there by name is its own choice
(log entry 3). -/
def Obligations.HostBreachStopsTheMachine : Prop :=
  ∀ (s : State) (rest : List HostMove) (w : CmdWord),
    step { s with host := .changeWhileWaiting w :: rest } = .fault .commandChangedWhileWaiting ∧
    step { s with host := .missResponse w :: rest } = .fault .responseNotCaptured

/-- R79, R228: as long as the host keeps the port protocol the machine never stops, whatever words it sends (what counts as
a breach is the model's list of host moves, log entry 3). -/
def Obligations.ProtocolKeepingHostNeverStopsTheMachine : Prop :=
  ∀ (n : Nat) (s : State), s.HostKeepsProtocol → ∃ t, runFrom n s = .next t ∧ t.HostKeepsProtocol

/-! ### The transaction against the reference function -/

/-- R14: what the reference function produces has 24 characters, each in '0'..'9' or 'A'..'F', the first three '3', '0',
'3', and it produces something exactly on valid inputs. -/
def Obligations.ReferenceStringShape : Prop :=
  ∀ g s : List CharCode,
    (Reference.encodeRef g s = none ↔ ¬(Reference.gtinOk g = true ∧ Reference.serialOk s = true)) ∧
    ∀ out, Reference.encodeRef g s = some out →
      out.length = 24 ∧ (∀ ch ∈ out, (0x30 ≤ ch ∧ ch ≤ 0x39) ∨ (0x41 ≤ ch ∧ ch ≤ 0x46)) ∧
      out.take 3 = [0x33, 0x30, 0x33]

/-- R138: the commands of a transaction in any interleaving, then `ENC`: one of the four rows of the table holds (they
exclude each other, their responses differ), the response and the state are those of that row, and every later `HEX i` answers character `i` of the reference function in the last row and `SEQ` in
the others. -/
def Obligations.TransactionEqualsTheReferenceFunction : Prop :=
  ∀ (cs : List Instr) (s : State), (∀ c ∈ cs, fillsTransaction c = true) → s.regs = Regs.reset →
    ∃ rs r t, exchange (wordsOf cs ++ [0x400]) s = some (rs ++ [r], t) ∧ rs.length = cs.length ∧
      (14 < (gtinChars cs).length ∨
        ((gtinChars cs).length ≤ 14 ∧ ((∃ c ∈ gtinChars cs, Reference.isDigit c = false) ∨ serialChars cs = [] ∨
          (∃ c ∈ serialChars cs, Reference.isDigit c = false))) ∨
        (Reference.gtinOk (gtinChars cs) = true ∧ Reference.serialDigits (serialChars cs) = true ∧
          2 ^ 38 ≤ Reference.decimal (serialChars cs)) ∨
        (Reference.gtinOk (gtinChars cs) = true ∧ Reference.serialOk (serialChars cs) = true)) ∧
      (14 < (gtinChars cs).length →
        r = 0x103 ∧ t.regs.ph = 2 ∧ t.regs.cause = 3 ∧ t.regs.epc = 0) ∧
      ((gtinChars cs).length ≤ 14 →
        ((∃ c ∈ gtinChars cs, Reference.isDigit c = false) ∨ serialChars cs = [] ∨
          (∃ c ∈ serialChars cs, Reference.isDigit c = false)) →
        r = 0x101 ∧ t.regs.ph = 2 ∧ t.regs.cause = 1 ∧ t.regs.epc = 0) ∧
      (Reference.gtinOk (gtinChars cs) = true → Reference.serialDigits (serialChars cs) = true →
        2 ^ 38 ≤ Reference.decimal (serialChars cs) →
        r = 0x102 ∧ t.regs.ph = 2 ∧ t.regs.cause = 2 ∧ t.regs.epc = 0) ∧
      (Reference.gtinOk (gtinChars cs) = true → Reference.serialOk (serialChars cs) = true →
        r = 0x000 ∧ t.regs.ph = 1 ∧ t.regs.cause = 0 ∧
        t.regs.epc.toNat = Reference.value (gtinChars cs) (serialChars cs)) ∧
      (∀ i : BitVec 5, i ≤ 23 →
        (∀ out, Reference.encodeRef (gtinChars cs) (serialChars cs) = some out →
          ∃ ch, out[i.toNat]? = some ch ∧ exec (.hex i) t = .next { t with rsp := some (0b00#2 ++ ch) }) ∧
        (Reference.encodeRef (gtinChars cs) (serialChars cs) = none →
          exec (.hex i) t = .next { t with rsp := some 0x200 }))

/-- R85 `ENCODE "g", "s"`, from any state: if the reference function is defined, `ENC` answers `OK(00)` and the 24 `HEX`
reads return its characters in order; otherwise `ENC` answers `ERR(c)` and all 24 answer `SEQ`. -/
def Obligations.EncodePseudoCommandReturnsTheReferenceString : Prop :=
  ∀ (g s : List CharCode) (st : State), ∃ rs t,
    exchange (wordsOf (Pseudo.encode g s).expand) st = some (rs, t) ∧ rs.length = g.length + s.length + 26 ∧
    (∀ out, Reference.encodeRef g s = some out →
      rs.drop (1 + g.length + s.length) = 0x000 :: out.map (fun ch => 0b00#2 ++ ch)) ∧
    (Reference.encodeRef g s = none → ∃ c : BitVec 8, (c = 1 ∨ c = 2 ∨ c = 3) ∧
      rs.drop (1 + g.length + s.length) = (0b01#2 ++ c) :: List.replicate 24 0x200)

/-! ### The port level -/

/-- R220: an edge with `rst` = 1 takes every register to its reset value, accepts nothing, presents no response and
leaves the block ready. -/
def Obligations.PortResetEdgeClearsTheBlock : Prop :=
  ∀ (p : Ports) (pin : PinIn), pin.rst = true → ∃ q, p.edge pin = .next q ∧ q.regs = State.reset.regs ∧
    q.job = none ∧ q.rspValid = false ∧ q.cmdReady = true ∧ p.accepts pin = false

/-- R225: an offered word that was not accepted is offered unchanged at the next edge without reset, or the model
stops by name (the stop is the model's choice, log entry 3); and the block never depends on `cmd` while `cmd_valid` = 0 or `cmd_ready` = 0. -/
def Obligations.PortHostMustHoldTheWord : Prop :=
  (∀ (p : Ports) (pin : PinIn) (w : CmdWord), p.held = some w → pin.rst = false →
    ¬(pin.cmdValid = true ∧ pin.cmd = w) → p.edge pin = .fault .commandChangedWhileWaiting) ∧
  (∀ (p q : Ports) (pin : PinIn), pin.rst = false → p.edge pin = .next q →
    q.held = if pin.cmdValid = true ∧ p.cmdReady = false then some pin.cmd else none) ∧
  (∀ (p q q' : Ports) (pin pin' : PinIn), pin.rst = pin'.rst → pin.cmdValid = pin'.cmdValid →
    (pin.cmdValid = false ∨ p.cmdReady = false) → p.edge pin = .next q → p.edge pin' = .next q' →
    q.regs = q'.regs ∧ q.job = q'.job ∧ q.rsp = q'.rsp)

/-- R226: while a command is in flight nothing is accepted, and an accepted command is in flight or answered after the
edge that accepts it. R204: there is no wait state, so at every edge without reset an offered word is accepted or a command
is in flight; that the block is therefore ready again in the cycle of the response is the model's deduction (log entry
6). -/
def Obligations.PortHoldsOneCommandInFlight : Prop :=
  (∀ (p : Ports) (pin : PinIn), p.job ≠ none → p.accepts pin = false) ∧
  (∀ (p q : Ports) (pin : PinIn), p.edge pin = .next q → p.accepts pin = true →
    (∃ j, q.job = some j ∧ j.word = pin.cmd ∧ q.rsp = none) ∨ (q.job = none ∧ q.rspValid = true)) ∧
  (∀ (p : Ports) (pin : PinIn), pin.rst = false → pin.cmdValid = true → p.accepts pin = true ∨ p.job ≠ none) ∧
  (∀ (p q : Ports) (pin : PinIn), p.edge pin = .next q → q.rspValid = true → q.cmdReady = true)

/-- One clock edge is one step of the command-level machine on the move the edge amounts to. The model's choice (log entry
12, with entries 2 and 15 for the moves without a response): R83 says that one step is one accepted command, and says
nothing of the edges between. -/
def Obligations.PortEdgeIsOneCommandLevelStep : Prop :=
  ∀ (p q : Ports) (pin : PinIn), p.edge pin = .next q →
    step { regs := p.regs, host := [p.moveAt pin], rsp := p.rsp } =
      .next { regs := q.regs, host := [], rsp := q.rsp }

/-- A run of clock edges is a run of the command-level machine with the same registers and the same response port at its
end. The model's choice (log entry 12, with entries 2 and 15): each edge corresponds to one step on the move it amounts
to, where R83 says only that one step is one accepted command. -/
def Obligations.PortRunRefinesTheCommandMachine : Prop :=
  ∀ (pins : List PinIn) (p q : Ports), p.edges pins = .next q →
    (p.movesOf pins).length = pins.length ∧
    runFrom pins.length { regs := p.regs, host := p.movesOf pins, rsp := p.rsp } =
      .next { regs := q.regs, host := [], rsp := q.rsp }

/-- R59, R226: along a run of edges without reset the commands are executed one after another in acceptance order: the
accepted words are those answered, in order, then the one still in flight, and the responses are those of the
command-level exchange of the answered words. That the registers are those after the answered words while another command
is in flight is the model's choice (log entry 15, with 12 for the port layer): its writes appear at the edge of its
response, a moment that R34 leaves unseen. The run starts with no command in flight; PortRunRefinesTheCommandMachine
covers the other starts. -/
def Obligations.PortResponsesFollowAcceptanceOrder : Prop :=
  ∀ (pins : List PinIn) (p q : Ports), (∀ pin ∈ pins, pin.rst = false) → p.job = none →
    p.edges pins = .next q →
    ∃ answered u, p.acceptedAlong pins = answered ++ (q.job.map Job.word).toList ∧
      exchange answered { regs := p.regs, host := [], rsp := none } = some (p.responsesAlong pins, u) ∧
      u.regs = q.regs

/-- R227: `LAT(op)` is at least 1, and a command accepted at an edge is answered after exactly `LAT(op)` edges, that edge
counted, with the response of the command-level machine and no other response on the way, whatever the host goes on
offering; a host that offers nothing gets there, and sees the response withdrawn after one cycle. That the accepting edge
is counted is the model's choice (log entry 17), and `LAT` itself is open (log entry 5). -/
def Obligations.PortAnswersAfterLat : Prop :=
  (∀ op : BitVec 4, 1 ≤ Config.lat op) ∧
  (∀ (p q : Ports) (w : CmdWord) (pins : List PinIn), p.cmdReady = true → (∀ pin ∈ pins, pin.rst = false) →
    pins.length + 1 = Config.lat (opField w) →
    p.edges ({ rst := false, cmdValid := true, cmd := w } :: pins) = .next q →
    ∃ t r, runWord w { regs := p.regs, host := [], rsp := none } = .next t ∧ t.rsp = some r ∧
      q.regs = t.regs ∧ q.rsp = some r ∧
      p.responsesAlong ({ rst := false, cmdValid := true, cmd := w } :: pins) = [r]) ∧
  (∀ (p : Ports) (w : CmdWord) (pins : List PinIn), p.cmdReady = true → p.held = none →
    (∀ pin ∈ pins, pin.rst = false ∧ pin.cmdValid = false) → pins.length + 1 = Config.lat (opField w) →
    ∃ q, p.edges ({ rst := false, cmdValid := true, cmd := w } :: pins) = .next q ∧ q.rspValid = true ∧
      ∀ x, ∃ q', q.edge { rst := false, cmdValid := false, cmd := x } = .next q' ∧ q'.rspValid = false)
end

