-- ==== Sys2Proof/Laws/Operands.lean ====
section
/-! SUPPORT. What the operand, flag and field functions compute, in natural numbers, so that no proof about a command
unfolds them. -/

namespace Sys2Proof.Machine

/-- R11: the digits are the codes 48 to 57. -/
theorem isdigit_iff (c : CharCode) : isdigit c = true ↔ 48 ≤ c.toNat ∧ c.toNat ≤ 57 := by
  simp [isdigit, BitVec.le_def]

theorem isdigit_eq_reference (c : CharCode) : isdigit c = Reference.isDigit c := by
  simp [isdigit, Reference.isDigit, BitVec.le_def, Bool.decide_and]

/-- R11: the value of a digit character. -/
theorem dval_toNat {c : CharCode} (h : isdigit c = true) : (dval c).toNat = c.toNat - 48 := by
  rw [isdigit_iff] at h
  have h30 : (0x30 : CharCode).toNat = 48 := rfl
  simp only [dval, BitVec.extractLsb'_toNat, BitVec.toNat_sub, h30, Nat.shiftRight_zero]
  omega

/-- R106: the value of a digit character is at most 9. -/
theorem dval_le_nine {c : CharCode} (h : isdigit c = true) : dval c ≤ 9 := by
  have h9 : (9 : Digit).toNat = 9 := rfl
  rw [BitVec.le_def, dval_toNat h, h9]
  rw [isdigit_iff] at h
  omega

/-- R101: positions 0 to 12 take their right neighbour. -/
theorem shiftIn_getElem (g : Window) (d : Digit) (i : Nat) (h : i < 13) :
    (shiftIn g d)[i]'(by omega) = g[i + 1]'(by omega) := by
  interval_cases i <;> rfl

/-- R101: the new digit stands at position 13. -/
theorem shiftIn_last (g : Window) (d : Digit) : (shiftIn g d)[13] = d := rfl

/-- R101: the shift on the list of the window's digits. -/
theorem shiftIn_toList (g : Window) (d : Digit) : (shiftIn g d).toList = g.toList.drop 1 ++ [d] := by
  apply List.ext_getElem
  · simp
  · intro i h₁ h₂
    simp only [Vector.length_toList] at h₁
    by_cases h : i < 13
    · rw [Vector.getElem_toList, shiftIn_getElem g d i h, List.getElem_append_left (by simp; omega)]
      simp
    · obtain rfl : i = 13 := by omega
      simp [shiftIn_last]

/-- R102 as a sum; it fits 24 bits for every content of the window. -/
theorem cpval_toNat (g : Window) : (cpval g).toNat = g[1].toNat * 1000000 + g[2].toNat * 100000 +
    g[3].toNat * 10000 + g[4].toNat * 1000 + g[5].toNat * 100 + g[6].toNat * 10 + g[7].toNat := by
  simp only [cpval, dec, List.length_cons, List.length_nil, BitVec.toNat_ofNat]
  omega

/-- R103 as a sum; it fits 20 bits for every content of the window. -/
theorem irval_toNat (g : Window) : (irval g).toNat = g[8].toNat * 10000 + g[9].toNat * 1000 +
    g[10].toNat * 100 + g[11].toNat * 10 + g[12].toNat := by
  simp only [irval, dec, List.length_cons, List.length_nil, BitVec.toNat_ofNat]
  omega

/-- R24: the counter saturates at 15. -/
theorem gcntNext_toNat (n : BitVec 4) : (gcntNext n).toNat = min (n.toNat + 1) 15 := by
  revert n; decide

/-- R106: the sum of `SCH` is exact and below 2^42. -/
theorem serialSum_of_digit (a : Serial) {c : CharCode} (h : isdigit c = true) :
    serialSum a c = a.toNat * 10 + (c.toNat - 48) := by
  rw [serialSum, dval_toNat h]

/-- R104: the accumulator on a digit. -/
theorem saccNext_of_digit (a : Serial) {c : CharCode} (h : isdigit c = true) :
    (saccNext a c).toNat = (a.toNat * 10 + (c.toNat - 48)) % 2 ^ 38 := by
  rw [saccNext, if_pos h, serialSum_of_digit a h, BitVec.toNat_ofNat]

/-- R104: the accumulator on a non-digit. -/
theorem saccNext_of_not_digit (a : Serial) {c : CharCode} (h : isdigit c = false) : saccNext a c = a := by
  simp [saccNext, h]

/-- R104: the overflow flag on a digit. -/
theorem sovfNext_of_digit (o : Bool) (a : Serial) {c : CharCode} (h : isdigit c = true) :
    sovfNext o a c = (o || decide (2 ^ 38 ≤ a.toNat * 10 + (c.toNat - 48))) := by
  rw [sovfNext, if_pos h, serialSum_of_digit a h]

/-- R104: the overflow flag on a non-digit. -/
theorem sovfNext_of_not_digit (o : Bool) (a : Serial) {c : CharCode} (h : isdigit c = false) :
    sovfNext o a c = o := by
  simp [sovfNext, h]

/-- R195: cause 0 exactly when no condition holds. -/
theorem encCause_eq_none_iff (n : BitVec 4) (gb sb sn so : Bool) :
    encCause n gb sb sn so = Cause.none ↔ n ≠ 15 ∧ gb = false ∧ sb = false ∧ sn = true ∧ so = false := by
  revert n gb sb sn so; decide

/-- R131: the value of the assembled code, the sum of its shifted fields. -/
theorem pack96_toNat (cp : CompanyPrefix) (ir : ItemRef) (sn : Serial) : (pack96 cp ir sn).toNat =
    0x303400000000000000000000 + cp.toNat * 2 ^ 58 + ir.toNat * 2 ^ 38 + sn.toNat := by
  have h₁ := sn.isLt
  have h₂ := ir.isLt
  have h₃ := cp.isLt
  simp only [pack96, BitVec.toNat_append]
  rw [← Nat.shiftLeft_add_eq_or_of_lt sn.isLt, ← Nat.shiftLeft_add_eq_or_of_lt ir.isLt,
    ← Nat.shiftLeft_add_eq_or_of_lt cp.isLt]
  simp only [Nat.shiftLeft_eq]
  have h : (Config.header.toNat * 2 ^ 3 ||| Config.filter.toNat) * 2 ^ 3 ||| Config.partition.toNat = 3085 := by
    decide
  rw [h]
  omega

/-- R131: the constant fields read back. -/
theorem pack96_top (cp : CompanyPrefix) (ir : ItemRef) (sn : Serial) :
    (pack96 cp ir sn).extractLsb' 82 14 = 0b00110000001101#14 := by
  apply BitVec.eq_of_toNat_eq
  have h₁ := sn.isLt
  have h₂ := ir.isLt
  have h₃ := cp.isLt
  rw [BitVec.extractLsb'_toNat, pack96_toNat, Nat.shiftRight_eq_div_pow]
  simp only [BitVec.toNat_ofNat]
  omega

/-- R151: `nib` as quotient and remainder. -/
theorem nib_toNat (v : Epc96) (i : Nat) (h : i ≤ 23) : (nib v i).toNat = v.toNat / 16 ^ (23 - i) % 16 := by
  rw [nib, BitVec.extractLsb'_toNat, Nat.shiftRight_eq_div_pow]
  congr 2
  rw [show (16 : Nat) = 2 ^ 4 from rfl, ← Nat.pow_mul]
  congr 1
  omega

/-- R152 as a natural number. -/
theorem hexchar_toNat (n : BitVec 4) :
    (hexchar n).toNat = if n.toNat ≤ 9 then 48 + n.toNat else 55 + n.toNat := by
  revert n; decide

/-- R152: `hexchar` is injective. -/
theorem hexchar_injective {m n : BitVec 4} (h : hexchar m = hexchar n) : m = n := by
  revert m n; decide

/-- R153 against R13 step 7: the formatter's character is the reference's. -/
theorem hexchar_nib_eq_reference (v : Epc96) (i : Nat) (h : i ≤ 23) :
    hexchar (nib v i) = Reference.hexCharAt v.toNat i := by
  apply BitVec.eq_of_toNat_eq
  rw [hexchar_toNat, nib_toNat v i h, Reference.hexCharAt, Reference.hexDigit]
  have : v.toNat / 16 ^ (23 - i) % 16 < 16 := Nat.mod_lt _ (by decide)
  split <;> simp only [BitVec.toNat_ofNat] <;> omega

end Sys2Proof.Machine
end

