-- ==== Sys2Proof/Laws/State.lean ====
section
/-! SUPPORT. One lemma per field per update of the state, each true by `rfl`, so that no proof unfolds a record
update. -/

namespace Sys2Proof.Machine

section respond
variable (s : State) (code : BitVec 2) (d : BitVec 8)
@[simp] theorem respond_regs : (s.respond code d).regs = s.regs := rfl
@[simp] theorem respond_host : (s.respond code d).host = s.host := rfl
@[simp] theorem respond_rsp : (s.respond code d).rsp = some (code ++ d) := rfl
end respond

section setRegs
variable (s : State) (r : Regs)
@[simp] theorem setRegs_regs : (s.setRegs r).regs = r := rfl
@[simp] theorem setRegs_host : (s.setRegs r).host = s.host := rfl
@[simp] theorem setRegs_rsp : (s.setRegs r).rsp = s.rsp := rfl
end setRegs

section finish
variable (s : State) (r : Regs) (d : BitVec 8)
@[simp] theorem finish_regs : (s.finish r d).regs = r := rfl
@[simp] theorem finish_host : (s.finish r d).host = s.host := rfl
@[simp] theorem finish_rsp : (s.finish r d).rsp = some (Code.ok ++ d) := rfl
end finish

section refusals
variable (s : State)
@[simp] theorem answerSeq_regs : s.answerSeq.regs = s.regs := rfl
@[simp] theorem answerSeq_host : s.answerSeq.host = s.host := rfl
@[simp] theorem answerSeq_rsp : s.answerSeq.rsp = some 0x200 := rfl
@[simp] theorem answerIll_regs : s.answerIll.regs = s.regs := rfl
@[simp] theorem answerIll_host : s.answerIll.host = s.host := rfl
@[simp] theorem answerIll_rsp : s.answerIll.rsp = some 0x300 := rfl
end refusals

section raise
variable (k : BitVec 2) (s : State)
@[simp] theorem raise_regs :
    (raiseEncodeError k s).regs = { s.regs with ph := Phase.err, cause := k } := rfl
@[simp] theorem raise_host : (raiseEncodeError k s).host = s.host := rfl
@[simp] theorem raise_rsp : (raiseEncodeError k s).rsp = some (Code.err ++ k.setWidth 8) := rfl
end raise

section moves
variable (s : State) (w : CmdWord)
@[simp] theorem applyReset_regs : (applyReset s).regs = Regs.reset := rfl
@[simp] theorem applyReset_host : (applyReset s).host = s.host := rfl
@[simp] theorem applyReset_rsp : (applyReset s).rsp = none := rfl
@[simp] theorem applyIdle_regs : (applyIdle s).regs = s.regs := rfl
@[simp] theorem applyIdle_host : (applyIdle s).host = s.host := rfl
@[simp] theorem applyIdle_rsp : (applyIdle s).rsp = none := rfl
@[simp] theorem offer_regs : (s.offer w).regs = s.regs := rfl
@[simp] theorem offer_host : (s.offer w).host = .command w :: s.host := rfl
@[simp] theorem offer_rsp : (s.offer w).rsp = s.rsp := rfl
end moves

section pushGtin
variable (c : CharCode) (r : Regs)
@[simp] theorem pushGtin_ph : (pushGtin c r).ph = r.ph := rfl
@[simp] theorem pushGtin_cause : (pushGtin c r).cause = r.cause := rfl
@[simp] theorem pushGtin_gcnt : (pushGtin c r).gcnt = gcntNext r.gcnt := rfl
@[simp] theorem pushGtin_gbad : (pushGtin c r).gbad = gbadNext r.gbad c := rfl
@[simp] theorem pushGtin_sacc : (pushGtin c r).sacc = r.sacc := rfl
@[simp] theorem pushGtin_sne : (pushGtin c r).sne = r.sne := rfl
@[simp] theorem pushGtin_sbad : (pushGtin c r).sbad = r.sbad := rfl
@[simp] theorem pushGtin_sovf : (pushGtin c r).sovf = r.sovf := rfl
@[simp] theorem pushGtin_epc : (pushGtin c r).epc = r.epc := rfl
end pushGtin

section pushSerial
variable (c : CharCode) (r : Regs)
@[simp] theorem pushSerial_ph : (pushSerial c r).ph = r.ph := rfl
@[simp] theorem pushSerial_cause : (pushSerial c r).cause = r.cause := rfl
@[simp] theorem pushSerial_g : (pushSerial c r).g = r.g := rfl
@[simp] theorem pushSerial_gcnt : (pushSerial c r).gcnt = r.gcnt := rfl
@[simp] theorem pushSerial_gbad : (pushSerial c r).gbad = r.gbad := rfl
@[simp] theorem pushSerial_sacc : (pushSerial c r).sacc = saccNext r.sacc c := rfl
@[simp] theorem pushSerial_sne : (pushSerial c r).sne = true := rfl
@[simp] theorem pushSerial_sbad : (pushSerial c r).sbad = sbadNext r.sbad c := rfl
@[simp] theorem pushSerial_sovf : (pushSerial c r).sovf = sovfNext r.sovf r.sacc c := rfl
@[simp] theorem pushSerial_epc : (pushSerial c r).epc = r.epc := rfl
end pushSerial

/-- The writes of `CLR` are the reset values (R35, R171). -/
theorem clearedRegs_eq_reset : clearedRegs = Regs.reset := rfl

end Sys2Proof.Machine
end

