-- ==== Sys2Proof/Laws/Ops.lean ====
section
/-! SUPPORT. What the shared operations can do: the order of checks (R81) and the command under it. -/

namespace Sys2Proof.Machine

/-- The state an executed command leaves, without its checks (R80, R81). -/
def effectOf (i : Instr) (s : State) : State :=
  match i with
  | .nop => s.finish s.regs 0x00
  | .clr => s.finish clearedRegs 0x00
  | .gch c => s.finish (pushGtin c s.regs) 0x00
  | .sch c => s.finish (pushSerial c s.regs) 0x00
  | .enc => encodeNow s
  | .hex idx => s.finish s.regs (hexchar (nib s.regs.epc idx.toNat))
  | .rds sel => s.finish s.regs (viewOf sel s.regs)

/-- Every command is its effect under the checks of R81. -/
theorem exec_eq_guarded (i : Instr) (s : State) : exec i s = guarded i s (effectOf i s) := by
  cases i <;> rfl

/-- R81: executed. -/
theorem guarded_executes {i : Instr} {s : State} (body : State) (hw : WellFormed i)
    (ha : allowed i s.regs.ph = true) : guarded i s body = .next body := by
  simp [guarded, hw, ha]

/-- R81: refused for phase. -/
theorem guarded_refuses {i : Instr} {s : State} (body : State) (hw : WellFormed i)
    (ha : allowed i s.regs.ph = false) : guarded i s body = .next s.answerSeq := by
  simp [guarded, hw, ha]

/-- R81: refused as illegal. -/
theorem guarded_illegal {i : Instr} {s : State} (body : State) (hw : wellFormed i = false) :
    guarded i s body = .next s.answerIll := by
  simp [guarded, hw]

/-- Everything the checks can lead to. -/
theorem guarded_cases {i : Instr} {s body t : State} (h : guarded i s body = .next t) :
    (WellFormed i ∧ allowed i s.regs.ph = true ∧ t = body) ∨
    (WellFormed i ∧ allowed i s.regs.ph = false ∧ t = s.answerSeq) ∨
    (wellFormed i = false ∧ t = s.answerIll) := by
  cases hw : wellFormed i with
  | false =>
    rw [guarded_illegal body hw] at h
    exact .inr (.inr ⟨rfl, by injection h with h; exact h.symm⟩)
  | true =>
    cases ha : allowed i s.regs.ph with
    | true =>
      rw [guarded_executes body hw ha] at h
      exact .inl ⟨hw, rfl, by injection h with h; exact h.symm⟩
    | false =>
      rw [guarded_refuses body hw ha] at h
      exact .inr (.inl ⟨hw, rfl, by injection h with h; exact h.symm⟩)

/-- Everything a command can do when it gives a next state. -/
theorem exec_cases {i : Instr} {s t : State} (h : exec i s = .next t) :
    (WellFormed i ∧ allowed i s.regs.ph = true ∧ t = effectOf i s) ∨
    (WellFormed i ∧ allowed i s.regs.ph = false ∧ t = s.answerSeq) ∨
    (wellFormed i = false ∧ t = s.answerIll) :=
  guarded_cases (exec_eq_guarded i s ▸ h)

/-- Everything `ENC` can do in COLLECT (R133, R195, R196). -/
theorem encodeNow_cases (s : State) :
    (s.regs.encCause = Cause.none ∧
      encodeNow s = s.finish { s.regs with epc := s.regs.code, ph := Phase.done } 0x00) ∨
    (s.regs.encCause ≠ Cause.none ∧ encodeNow s = raiseEncodeError s.regs.encCause s) := by
  unfold encodeNow
  split
  · exact .inl ⟨‹_›, rfl⟩
  · exact .inr ⟨‹_›, rfl⟩

/-- What a command's effect leaves of the host's moves and of the response port (R76). -/
theorem effectOf_host (i : Instr) (s : State) : (effectOf i s).host = s.host := by
  cases i <;> try rfl
  rcases encodeNow_cases s with ⟨-, h⟩ | ⟨-, h⟩ <;> simp [effectOf, h]

/-- An executed command writes only the registers its rule names (R37). -/
theorem effectOf_regs (i : Instr) (s : State) :
    (effectOf i s).regs = match i with
      | .nop => s.regs
      | .clr => clearedRegs
      | .gch c => pushGtin c s.regs
      | .sch c => pushSerial c s.regs
      | .enc => if s.regs.encCause = Cause.none then { s.regs with epc := s.regs.code, ph := Phase.done }
          else { s.regs with ph := Phase.err, cause := s.regs.encCause }
      | .hex _ => s.regs
      | .rds _ => s.regs := by
  cases i <;> try rfl
  rcases encodeNow_cases s with ⟨hc, h⟩ | ⟨hc, h⟩
  · rw [effectOf, h, if_pos hc, finish_regs]
  · rw [effectOf, h, if_neg hc, raise_regs]

end Sys2Proof.Machine
end

