-- ==== Sys2Proof/Laws/PerInstr.lean ====
section
/-! SUPPORT. Statements made once per constructor of `Instr`. The family `MatchMask` says that a well-formed command's
word lies in the match and mask of its row in the table of R75. -/

namespace Sys2Proof.Laws.MatchMask

/-- The `mask` column of R75. -/
def mask : Instr → CmdWord
  | .nop => 0xFFF
  | .clr => 0xFFF
  | .gch _ => 0xF00
  | .sch _ => 0xF00
  | .enc => 0xFFF
  | .hex _ => 0xFE0
  | .rds _ => 0xFFC

/-- The `match` column of R75. -/
def pattern : Instr → CmdWord
  | .nop => 0x000
  | .clr => 0x100
  | .gch _ => 0x200
  | .sch _ => 0x300
  | .enc => 0x400
  | .hex _ => 0x500
  | .rds _ => 0x600

/-- The command's word matches its row, and for `HEX` and `RDS` the extra constraint of R75 holds. -/
def Statement (i : Instr) : Prop :=
  WellFormed i → encode i &&& mask i = pattern i ∧
    (match i with
      | .hex _ => (encode i).extractLsb' 0 5 ≤ 23
      | .rds _ => (encode i).extractLsb' 0 2 ≠ 3
      | _ => True)

theorem nop : Statement .nop := by unfold Statement; decide
theorem clr : Statement .clr := by unfold Statement; decide
theorem enc : Statement .enc := by unfold Statement; decide
theorem gch (c : CharCode) : Statement (.gch c) := by unfold Statement; revert c; decide
theorem sch (c : CharCode) : Statement (.sch c) := by unfold Statement; revert c; decide
theorem hex (i : BitVec 5) : Statement (.hex i) := by unfold Statement; revert i; decide
theorem rds (sel : BitVec 2) : Statement (.rds sel) := by unfold Statement; revert sel; decide

end Sys2Proof.Laws.MatchMask
end

