-- ==== Sys2Proof/Laws/Step.lean ====
section
/-! SUPPORT. What a step does for each of the host's moves (R81, R220, R224, R227, R228), and the exchange of one
word. -/

namespace Sys2Proof.Machine

section moves
variable {s : State} {rest : List HostMove} {w : CmdWord}

theorem step_no_move (h : s.host = []) : step s = .next (applyIdle s) := by
  simp [step, h]

theorem step_idle (h : s.host = .idle :: rest) : step s = .next (applyIdle { s with host := rest }) := by
  simp [step, h]

theorem step_command (h : s.host = .command w :: rest) : step s = runWord w { s with host := rest } := by
  simp [step, h]

theorem step_reset (h : s.host = .reset :: rest) : step s = .next (applyReset { s with host := rest }) := by
  simp [step, h]

theorem step_commandThenReset (h : s.host = .commandThenReset w :: rest) :
    step s = .next (applyReset { s with host := rest }) := by
  simp [step, h]

end moves

/-- An offered word is run as the next step (R81). -/
theorem step_offer (s : State) (w : CmdWord) : step (s.offer w) = runWord w s := rfl

/-- A legal word runs its command. -/
theorem runWord_legal {w : CmdWord} {i : Instr} (h : decode w = .legal i) (s : State) :
    runWord w s = exec i s := by
  simp [runWord, h]

/-- An illegal word is refused (R79). -/
theorem runWord_illegal {w : CmdWord} {why : IllegalWord} (h : decode w = .illegal why) (s : State) :
    runWord w s = .next s.answerIll := by
  simp [runWord, h]

/-- The exchange of one word before the others. -/
theorem exchange_cons {w : CmdWord} {ws : List CmdWord} {s t : State} {r : RspWord}
    (ht : runWord w s = .next t) (hr : t.rsp = some r) :
    exchange (w :: ws) s = (exchange ws t).map fun p => (r :: p.1, p.2) := by
  rw [exchange, step_offer, ht]
  simp only [hr]
  cases h : exchange ws t with
  | none => rfl
  | some p => rfl

/-- The registers and the response after one word: a function of the registers and the word (R34, R81). -/
def transition (w : CmdWord) (r : Regs) : Regs × RspWord :=
  match decode w with
  | .illegal _ => (r, 0x300)
  | .legal i =>
    if allowed i r.ph then
      ((effectOf i { regs := r, host := [], rsp := none }).regs,
        (effectOf i { regs := r, host := [], rsp := none }).rsp.getD 0)
    else (r, 0x200)

/-- The effect of a command reads the registers only and always presents a response. -/
theorem effectOf_eq (i : Instr) (s : State) :
    effectOf i s = { regs := (effectOf i { regs := s.regs, host := [], rsp := none }).regs, host := s.host,
                     rsp := some ((effectOf i { regs := s.regs, host := [], rsp := none }).rsp.getD 0) } := by
  cases i <;> try rfl
  simp only [effectOf, encodeNow]
  split <;> rfl

/-- Only legal words decode to a command, and such a command is well-formed (R73, R75). -/
theorem wellFormed_of_decode {w : CmdWord} {i : Instr} (h : decode w = .legal i) : WellFormed i := by
  unfold decode decodeFields decodePlain decodeHex decodeRds at h
  repeat' split at h
  all_goals first
    | (injection h with h; subst h; first | rfl | (simp [WellFormed, wellFormed] at *; omega) | simp_all [WellFormed, wellFormed])
    | cases h

/-- One accepted word always has a next state, given by `transition` (R79, R81). -/
theorem runWord_eq (w : CmdWord) (s : State) :
    runWord w s = .next { regs := (transition w s.regs).1, host := s.host, rsp := some (transition w s.regs).2 } := by
  unfold transition
  cases h : decode w with
  | illegal why => rw [runWord_illegal h]; rfl
  | legal i =>
    rw [runWord_legal h, exec_eq_guarded]
    cases ha : allowed i s.regs.ph with
    | true => rw [guarded_executes _ (wellFormed_of_decode h) ha, effectOf_eq]; simp [ha]
    | false => rw [guarded_refuses _ (wellFormed_of_decode h) ha]; simp [ha]; rfl

end Sys2Proof.Machine
end

