-- ==== Sys2Proof/Laws/Ports.lean ====
section
/-! SUPPORT. What one clock edge can do at the ports (R220, R225 to R227), said once. -/

namespace Sys2Proof.Machine

/-- A command in flight is answered at its last edge, all its writes at once, and otherwise comes one edge nearer. -/
theorem advance_eq (p : Ports) (j : Job) : p.advance j =
    if j.left ≤ 1 then
      .next { p with regs := (transition j.word p.regs).1, job := none,
                     rsp := some (transition j.word p.regs).2 }
    else .next { p with job := some { j with left := j.left - 1 }, rsp := none } := by
  unfold Ports.advance
  rw [runWord_eq]

/-- Everything an edge can lead to when it does not stop. -/
theorem edge_cases {p q : Ports} {pin : PinIn} (h : p.edge pin = .next q) :
    (pin.rst = true ∧ q = Ports.afterReset) ∨
    (pin.rst = false ∧ p.keepsOffer pin = true ∧
      ((∃ j, p.jobAt pin = some j ∧ j.left ≤ 1 ∧
          q = { p with held := p.heldAfter pin, regs := (transition j.word p.regs).1, job := none,
                       rsp := some (transition j.word p.regs).2 }) ∨
       (∃ j, p.jobAt pin = some j ∧ ¬j.left ≤ 1 ∧
          q = { p with held := p.heldAfter pin, job := some { j with left := j.left - 1 }, rsp := none }) ∨
       (p.jobAt pin = none ∧ q = { p with held := p.heldAfter pin, rsp := none }))) := by
  unfold Ports.edge at h
  cases hr : pin.rst with
  | true => rw [if_pos hr] at h; injection h with h; exact .inl ⟨rfl, h.symm⟩
  | false =>
    rw [if_neg (by rw [hr]; decide)] at h
    cases hk : p.keepsOffer pin with
    | false => rw [if_neg (by rw [hk]; decide)] at h; cases h
    | true =>
      rw [if_pos hk] at h
      refine .inr ⟨rfl, rfl, ?_⟩
      cases hj : p.jobAt pin with
      | none => rw [hj] at h; injection h with h; exact .inr (.inr ⟨rfl, h.symm⟩)
      | some j =>
        rw [hj] at h
        dsimp only at h
        rw [advance_eq] at h
        split at h
        · injection h with h; exact .inl ⟨j, rfl, ‹_›, h.symm⟩
        · injection h with h; exact .inr (.inl ⟨j, rfl, ‹_›, h.symm⟩)

/-- An edge stops only where the host breaks its duty of R225. -/
theorem edge_completes {p : Ports} {pin : PinIn} (h : pin.rst = true ∨ p.keepsOffer pin = true) :
    ∃ q, p.edge pin = .next q := by
  unfold Ports.edge
  cases hr : pin.rst with
  | true => exact ⟨_, rfl⟩
  | false =>
    have hk : p.keepsOffer pin = true := by simpa [hr] using h
    rw [if_neg (by decide), if_pos hk]
    dsimp only
    split
    · rw [advance_eq]; split <;> exact ⟨_, rfl⟩
    · exact ⟨_, rfl⟩

/-- A run of edges with a host that offers nothing never stops. -/
theorem quiet_edges_complete (pins : List PinIn) (p : Ports) (hp : p.held = none)
    (hq : ∀ pin ∈ pins, pin.rst = false ∧ pin.cmdValid = false) : ∃ q, p.edges pins = .next q := by
  induction pins generalizing p with
  | nil => exact ⟨p, rfl⟩
  | cons pin pins ih =>
    obtain ⟨m, hm⟩ := edge_completes (p := p) (pin := pin) (.inr (by simp [Ports.keepsOffer, hp]))
    have hv := hq pin (by simp)
    have hh : m.held = none := by
      have ha : p.heldAfter pin = none := by simp [Ports.heldAfter, hv.2]
      rcases edge_cases hm with ⟨-, e⟩ | ⟨-, -, ⟨_, -, -, e⟩ | ⟨_, -, -, e⟩ | ⟨-, e⟩⟩ <;> rw [e]
      · rfl
      all_goals exact ha
    obtain ⟨q, h⟩ := ih m hh fun x hx => hq x (by simp [hx])
    exact ⟨q, by rw [Ports.edges, hm]; exact h⟩

end Sys2Proof.Machine
end

