-- ==== Sys2Proof/Tests/Slice0.lean ====
section
/-! SUPPORT. The model's own tests: the ill-formed terms `WellFormed` refuses, words written out from the spec's
encodings, one-step tests whose expected values are taken from spec/95_test_vectors.md or worked out by hand from the
rules named, and for each statement with hypotheses a concrete witness that meets them. -/

namespace Sys2Proof.Tests

open Sys2Proof.Machine

/-! ### Helpers -/

/-- A state with these registers and nothing at the ports. -/
def st (r : Regs) : State := { regs := r, host := [], rsp := none }

/-- The registers after the pushes of INV's known vector (spec/95_test_vectors.md V1, P1), before `ENC`. -/
def filled : Regs :=
  { Regs.reset with g := #v[0, 5, 0, 5, 7, 8, 7, 7, 1, 3, 1, 5, 3, 0], gcnt := 13, sacc := 9001, sne := true }

/-- The registers at the end of P1. -/
def doneRegs : Regs := { filled with ph := 1, epc := 0x303534B5540CD84000002329 }

/-- The registers after the failing `ENC` of P3. -/
def errRegs : Regs :=
  { Regs.reset with ph := 2, cause := 1, g := #v[0, 0, 0, 0, 0, 0, 0, 0, 0, 0, 0, 1, 2, 4], gcnt := 4, gbad := true,
                    sacc := 7, sne := true }

/-- The registers an outcome's next state holds, where there is one. -/
def regsOf : Host.Outcome State Fault Refusal → Option Regs
  | .next t => some t.regs
  | .fault _ => none
  | .refused _ => none

/-- The response an outcome's next state presents, where there is one. -/
def rspOf : Host.Outcome State Fault Refusal → Option RspWord
  | .next t => t.rsp
  | .fault _ => none
  | .refused _ => none

/-! ### WellFormed refuses (R73) -/

theorem test_wellFormed_refuses_hex_24 : ¬WellFormed (.hex 24) := by decide
theorem test_wellFormed_refuses_hex_31 : ¬WellFormed (.hex 31) := by decide
theorem test_wellFormed_refuses_rds_3 : ¬WellFormed (.rds 3) := by decide
/-- R79: such a term, were it given to `exec`, answers `ILL` in every phase, before the phase is looked at. -/
theorem test_exec_hex_24_answers_ill : rspOf (exec (.hex 24) State.reset) = some 0x300 := by decide

/-! ### Words written out bit by bit from R70 and R72 -/

theorem test_decode_nop : decode 0b0000_00000000 = .legal .nop := by decide
theorem test_decode_clr : decode 0b0001_00000000 = .legal .clr := by decide
theorem test_decode_gch_5 : decode 0b0010_00110101 = .legal (.gch 0x35) := by decide
theorem test_decode_gch_ff : decode 0b0010_11111111 = .legal (.gch 0xFF) := by decide
theorem test_decode_sch_2f : decode 0b0011_00101111 = .legal (.sch 0x2F) := by decide
theorem test_decode_enc : decode 0b0100_00000000 = .legal .enc := by decide
theorem test_decode_hex_23 : decode 0b0101_000_10111 = .legal (.hex 23) := by decide
theorem test_decode_hex_24 : decode 0b0101_000_11000 = .illegal .hexIndexOutOfRange := by decide
theorem test_decode_hex_zero_bits : decode 0b0101_001_00000 = .illegal .hexIndexOutOfRange := by decide
theorem test_decode_rds_2 : decode 0b0110_000000_10 = .legal (.rds 2) := by decide
theorem test_decode_rds_3 : decode 0b0110_000000_11 = .illegal .selectorOutOfRange := by decide
theorem test_decode_rds_zero_bits : decode 0b0110_000001_00 = .illegal .selectorOutOfRange := by decide
theorem test_decode_enc_data : decode 0x401 = .illegal .nonzeroData := by decide
theorem test_decode_reserved : decode 0x700 = .illegal .reservedOpcode ∧ decode 0xFFF = .illegal .reservedOpcode := by decide
/-- R84: 'encoding of a line', `GCH '5'` = 0x235, `SCH '9'` = 0x339, `HEX 23` = 0x517, `RDS FLAGS` = 0x601. -/
theorem test_encode_lines : encode (.gch 0x35) = 0x235 ∧ encode (.sch 0x39) = 0x339 ∧ encode (.hex 23) = 0x517 ∧
    encode (.rds 1) = 0x601 := by decide
theorem test_decodeTableWord : decodeTableWord 12 0x517 = some (.hex 23) ∧ decodeTableWord 16 0x400 = some .enc ∧
    decodeTableWord 16 0x518 = none := by decide

/-! ### One step each (spec/95_test_vectors.md) -/

/-- D1.1: `GCH '3'` on the window ...12. -/
theorem test_gch_shifts : (regsOf (execGch 0x33 (st { Regs.reset with
    g := #v[0, 0, 0, 0, 0, 0, 0, 0, 0, 0, 0, 0, 1, 2], gcnt := 2 }))).map Regs.g =
    some #v[0, 0, 0, 0, 0, 0, 0, 0, 0, 0, 0, 1, 2, 3] := by decide
/-- D1.3: a 15th character that is no digit: the window stays, `GCNT` 15, `GBAD` set. -/
theorem test_gch_fifteenth : (regsOf (execGch 0x41 (st { Regs.reset with
    g := #v[1, 2, 3, 4, 5, 6, 7, 8, 9, 0, 1, 2, 3, 4], gcnt := 14 }))) =
    some { Regs.reset with g := #v[1, 2, 3, 4, 5, 6, 7, 8, 9, 0, 1, 2, 3, 4], gcnt := 15, gbad := true } := by decide
/-- D2.1: the twelfth digit '4' reaches 2^38. -/
theorem test_sch_overflow : (regsOf (execSch 0x34 (st { Regs.reset with sacc := 27487790694, sne := true }))) =
    some { Regs.reset with sacc := 0, sne := true, sovf := true } := by decide
/-- R104 'Exact boundary': the digit '3' instead gives 2^38 − 1. -/
theorem test_sch_maximum : (regsOf (execSch 0x33 (st { Regs.reset with sacc := 27487790694, sne := true }))) =
    some { Regs.reset with sacc := 274877906943, sne := true } := by decide
/-- V1: `ENC` on INV's known vector. -/
theorem test_enc_known_vector : regsOf (execEnc (st filled)) = some doneRegs := by decide
/-- D2.6 row x: the length error outranks the digit fault, and the answer is `ERR(3)`. -/
theorem test_enc_priority : rspOf (execEnc (st { filled with gcnt := 15, sbad := true })) = some 0x103 := by decide
/-- R153: `HEX 6` of INV's known vector is 'B'. -/
theorem test_hex_6 : rspOf (execHex 6 (st doneRegs)) = some 0x042 := by decide
/-- P3: `HEX 0` in ERR answers `SEQ`. -/
theorem test_hex_in_err : rspOf (execHex 0 (st errRegs)) = some 0x200 := by decide
/-- P3: `RDS FLAGS` reads `GBAD` and `SNE`. -/
theorem test_rds_flags : rspOf (execRds 1 (st errRegs)) = some 0x005 := by decide
/-- P3: `RDS STATUS` reads ERR with cause 1. -/
theorem test_rds_status : rspOf (execRds 0 (st errRegs)) = some 0x006 := by decide
/-- D5: `CLR` from DONE. -/
theorem test_clr_from_done : regsOf (execClr (st doneRegs)) = some Regs.reset := by decide
/-- D5: `NOP`. -/
theorem test_nop : regsOf (execNop (st errRegs)) = some errRegs ∧ rspOf (execNop (st errRegs)) = some 0x000 := by decide
/-- D5: the illegal word 0x1FF in DONE. -/
theorem test_step_illegal : rspOf (step ((st doneRegs).offer 0x1FF)) = some 0x300 ∧
    regsOf (step ((st doneRegs).offer 0x1FF)) = some doneRegs := by decide
/-- The first word after reset, through the host's entry. -/
theorem test_withFetchWord : (regsOf (step (State.reset.withFetchWord 12 0x237))).map Regs.g =
    some #v[0, 0, 0, 0, 0, 0, 0, 0, 0, 0, 0, 0, 0, 7] := by decide

/-- D3: the least significant bit of each field, and the largest code. -/
theorem test_pack96 : pack96 1 0 0 = 0x303400000400000000000000 ∧ pack96 0 1 0 = 0x303400000000004000000000 ∧
    pack96 0 0 1 = 0x303400000000000000000001 ∧
    pack96 9999999 99999 274877906943 = 0x30366259FC61A7FFFFFFFFFF := by decide
/-- V1 on the reference function. -/
theorem test_reference_known_vector : Reference.encodeRef
    [0x35, 0x30, 0x35, 0x37, 0x38, 0x37, 0x37, 0x31, 0x33, 0x31, 0x35, 0x33, 0x30] [0x39, 0x30, 0x30, 0x31] =
    some [0x33, 0x30, 0x33, 0x35, 0x33, 0x34, 0x42, 0x35, 0x35, 0x34, 0x30, 0x43, 0x44, 0x38, 0x34, 0x30, 0x30, 0x30,
      0x30, 0x30, 0x32, 0x33, 0x32, 0x39] := by decide
/-- R84: script lines. -/
theorem test_script_char : Script.readLine "GCH '5' ; the digit five".toList =
    some { cmds := [.gch 0x35], expected := none } := by decide
theorem test_script_view : Script.readLine "RDS FLAGS -> OK(05)".toList =
    some { cmds := [.rds 1], expected := some 0x005 } := by decide
/-- R85: `ENCODE`. -/
theorem test_script_encode : (Script.readLine "ENCODE \"12\", \"7\"".toList).map (fun l => l.cmds.take 6) =
    some [.clr, .gch 0x31, .gch 0x32, .sch 0x37, .enc, .hex 0] := by decide

/-! ### Witnesses: for each statement with hypotheses, inputs that meet them together -/

theorem witness_NopAnswersOkAndChangesNothing : (0x01 : BitVec 8) ≠ 0 := by decide
theorem witness_ClrReturnsEveryRegisterToReset :
    (0xFF : BitVec 8) ≠ 0 ∧ doneRegs.ph ≠ 0 ∧
    (∃ t, exec .clr (st doneRegs) = .next t ∧ t.regs.ph ≠ (st doneRegs).regs.ph) ∧ (23 : BitVec 5) ≤ 23 :=
  ⟨by decide, by decide, ⟨_, rfl, by decide⟩, by decide⟩
theorem witness_RdsReturnsTheSelectedView : 2 < (0x03 : BitVec 8).toNat := by decide

/-- A digit at each end of the range with 13 characters in, then the first non-digits on both sides, a 15th digit, and
the two other phases. -/
theorem witness_GchPushesOneGtinCharacter :
    ((st filled).regs.ph = 0 ∧ (0x30 : CharCode) ≤ 0x30 ∧ (0x39 : CharCode) ≤ 0x39 ∧ (st filled).regs.gcnt < 14) ∧
    ¬((0x30 : CharCode) ≤ 0x2F) ∧ ¬((0x3A : CharCode) ≤ 0x39) ∧
    ¬((st { filled with gcnt := 14 }).regs.gcnt < 14) ∧
    (st doneRegs).regs.ph ≠ 0 ∧ (st errRegs).regs.ph ≠ 0 := by decide
theorem witness_SchAccumulatesOneSerialCharacter :
    ((st { filled with sacc := 27487790694 }).regs.ph = 0 ∧ (0x30 : CharCode) ≤ 0x34 ∧ (0x34 : CharCode) ≤ 0x39) ∧
    ¬((0x30 : CharCode) ≤ 0x2D) ∧ (st doneRegs).regs.ph ≠ 0 := by decide
theorem witness_ParsedFieldsAreDecimalAndFit :
    ∀ i : Fin 14, (#v[9, 9, 9, 9, 9, 9, 9, 9, 9, 9, 9, 9, 9, 9] : Window)[i] ≤ 9 := by decide
theorem witness_InterleavingOfPushesDoesNotMatter :
    (∃ t, exec (.gch 0x31) (st filled) = .next t) ∧ (∃ t, exec (.sch 0x31) (st filled) = .next t) ∧
    (∀ c ∈ [Instr.gch 0x31, .sch 0x32, .nop], fillsTransaction c = true) ∧
    (∀ c ∈ [Instr.rds 2, .sch 0x32, .gch 0x31], fillsTransaction c = true) ∧
    gtinChars [.gch 0x31, .sch 0x32, .nop] = gtinChars [.rds 2, .sch 0x32, .gch 0x31] ∧
    serialChars [.gch 0x31, .sch 0x32, .nop] = serialChars [.rds 2, .sch 0x32, .gch 0x31] :=
  ⟨⟨_, rfl⟩, ⟨_, rfl⟩, by decide, by decide, by decide, by decide⟩
theorem witness_GtinRegistersTrackThePushedString :
    (∀ c ∈ [Instr.gch 0x31, .nop, .gch 0x32, .sch 0x37, .rds 1], fillsTransaction c = true) ∧
    State.reset.regs = Regs.reset ∧ (gtinChars [.gch 0x31, .nop, .gch 0x32, .sch 0x37, .rds 1]).length ≤ 14 ∧
    (gtinChars [.gch 0x31, .nop, .gch 0x32, .sch 0x37, .rds 1]).all Reference.isDigit = true := by decide
theorem witness_SerialRegistersTrackThePushedString :
    (∀ c ∈ [Instr.sch 0x39, .sch 0x2D, .gch 0x41], fillsTransaction c = true) ∧ State.reset.regs = Regs.reset := by
  decide

theorem witness_EncCausePriority : ((15 : BitVec 4) = 15) ∧ ((14 : BitVec 4) ≠ 15 ∧ ((true : Bool) = true)) ∧
    ∃ t, exec .enc (st { filled with sovf := true }) = .next t := ⟨by decide, by decide, _, rfl⟩
theorem witness_EncLatchesTheCodeOfValidInputs :
    (st filled).regs.ph = 0 ∧ (st filled).regs.gcnt ≠ 15 ∧ (st filled).regs.gbad = false ∧
    (st filled).regs.sbad = false ∧ (st filled).regs.sne = true ∧ (st filled).regs.sovf = false := by decide
theorem witness_EncRaisesTheErrorOfInvalidInputs :
    ((st { filled with gcnt := 15 }).regs.ph = 0 ∧ (st { filled with gcnt := 15 }).regs.gcnt = 15) ∧
    ((st { filled with sne := false }).regs.gcnt ≠ 15 ∧ (st { filled with sne := false }).regs.sne = false) ∧
    ((st { filled with sovf := true }).regs.gcnt ≠ 15 ∧ (st { filled with sovf := true }).regs.gbad = false ∧
      (st { filled with sovf := true }).regs.sbad = false ∧ (st { filled with sovf := true }).regs.sne = true ∧
      (st { filled with sovf := true }).regs.sovf = true) ∧
    (st errRegs).regs.ph ≠ 0 := by decide
theorem witness_LatchedCodeStaysInItsRange : doneRegs.Inv ∧ doneRegs.Latched ∧ doneRegs.ph = 1 := by decide
theorem witness_IndicatorAndCheckDigitAreIgnored :
    (∀ i : Fin 14, i.val ≠ 0 → i.val ≠ 13 →
      ({ filled with g := #v[9, 5, 0, 5, 7, 8, 7, 7, 1, 3, 1, 5, 3, 8] } : Regs).g[i] = filled.g[i]) ∧
    ({ filled with g := #v[9, 5, 0, 5, 7, 8, 7, 7, 1, 3, 1, 5, 3, 8] } : Regs) =
      { filled with g := ({ filled with g := #v[9, 5, 0, 5, 7, 8, 7, 7, 1, 3, 1, 5, 3, 8] } : Regs).g } := by decide

theorem witness_HexReturnsOneCharacter : ((23 : BitVec 5) ≤ 23 ∧ (st doneRegs).regs.ph = 1) ∧
    ((0 : BitVec 5) ≤ 23 ∧ (st errRegs).regs.ph ≠ 1) ∧ 23 < (0x18 : BitVec 8).toNat := by decide
theorem witness_HexstrIsUppercaseAndDeterminesTheValue : hexstr 0 = hexstr 0 ∧ 0x30 ∈ hexstr 0 := by decide
theorem witness_HexAllReadsTheWholeString : (st doneRegs).regs.ph = 1 := by decide
theorem witness_FirstCharactersAreFixed : doneRegs.Inv ∧ doneRegs.Latched ∧ doneRegs.ph = 1 := by decide

theorem witness_DecodeOfEncodeIsTheCommand : WellFormed (.hex 23) ∧ WellFormed (.rds 2) ∧ WellFormed (.gch 0xFF) := by
  decide
theorem witness_EncodeOfDecodeIsTheWord : decode 0x517 = .legal (.hex 23) := by decide
theorem witness_ScriptLineOfACommandReadsBack : WellFormed (.hex 10) ∧ WellFormed (.sch 0xB5) := by decide
theorem witness_IllegalWordsAnswerIll : ∃ why, decode 0x518 = .illegal why := ⟨.hexIndexOutOfRange, by decide⟩
theorem witness_PhaseLegalityTable : WellFormed (.hex 23) ∧ doneRegs.ph = 1 ∧ WellFormed .enc ∧ ¬doneRegs.ph = 0 := by
  decide
theorem witness_StepRunsTheDecodedCommand : decode 0x235 = .legal (.gch 0x35) ∧
    decode 0x700 = .illegal .reservedOpcode ∧
    (decode 0x400 = .legal .enc ∧ allowed .enc (st doneRegs).regs.ph = false) ∧
    decodeTableWord 16 0x602 = some (.rds 2) := by decide
theorem witness_RefusalsWriteNothing :
    (∃ t, step ((st doneRegs).offer 0x400) = .next t ∧ t.rsp = some 0x200) ∧
    (∃ t, step ((st doneRegs).offer 0x518) = .next t ∧ t.rsp = some 0x300) ∧
    (0x200 : RspWord).extractLsb' 8 2 = 2 ∧ (0x300 : RspWord).extractLsb' 8 2 = 3 :=
  ⟨⟨_, rfl, rfl⟩, ⟨_, rfl, rfl⟩, by decide, by decide⟩
theorem witness_ErrResponsesComeFromEncOnly :
    (∃ t, step (State.reset.offer 0x400) = .next t ∧ t.rsp = some 0x101) ∧ (0x101 : RspWord).extractLsb' 8 2 = 1 :=
  ⟨⟨_, rfl, rfl⟩, by decide⟩
theorem witness_EveryCommandKeepsItsFrame : (∃ t, exec .nop (st filled) = .next t) ∧
    (∃ t, exec (.hex 23) (st doneRegs) = .next t) ∧ (∃ t, exec (.rds 2) (st filled) = .next t) ∧
    (∃ t, exec (.gch 0x39) (st filled) = .next t) ∧ (∃ t, exec (.sch 0x39) (st filled) = .next t) ∧
    (∃ t, exec .enc (st filled) = .next t) ∧ (∃ t, exec .clr (st filled) = .next t) :=
  ⟨⟨_, rfl⟩, ⟨_, rfl⟩, ⟨_, rfl⟩, ⟨_, rfl⟩, ⟨_, rfl⟩, ⟨_, rfl⟩, ⟨_, rfl⟩⟩
theorem witness_EveryCommandReadsOnlyItsRegisters :
    (filled.ph = ({ filled with sacc := 3, sovf := true } : Regs).ph ∧
      filled.g = ({ filled with sacc := 3, sovf := true } : Regs).g ∧
      filled.gcnt = ({ filled with sacc := 3, sovf := true } : Regs).gcnt) ∧
    (∃ t, exec (.gch 0x30) (st filled) = .next t) ∧
    (∃ t, exec (.gch 0x30) (st { filled with sacc := 3, sovf := true }) = .next t) ∧
    ((∀ i : Fin 14, i.val ≠ 0 → i.val ≠ 13 →
        filled.g[i] = ({ filled with g := #v[9, 5, 0, 5, 7, 8, 7, 7, 1, 3, 1, 5, 3, 8], cause := 3, epc := 1 } : Regs).g[i]) ∧
      ∃ t, exec .enc (st { filled with g := #v[9, 5, 0, 5, 7, 8, 7, 7, 1, 3, 1, 5, 3, 8], cause := 3, epc := 1 }) =
        .next t) :=
  ⟨by decide, ⟨_, rfl⟩, ⟨_, rfl⟩, by decide, _, rfl⟩

theorem witness_EveryStepKeepsTheRegisterInvariant :
    filled.Inv ∧ ∃ t, step ((st filled).offer 0x400) = .next t ∧ t.regs.ph = 1 := ⟨by decide, _, rfl, by decide⟩
theorem witness_EveryStepKeepsTheLatchedCode :
    filled.Latched ∧ ∃ t, step ((st filled).offer 0x400) = .next t ∧ t.regs.ph = 1 := ⟨by decide, _, rfl, by decide⟩
theorem witness_EveryStepKeepsThePadding :
    filled.Padded ∧ (∃ t, step ((st filled).offer 0x239) = .next t ∧ t.regs.gcnt = 14) ∧ filled.gcnt < 14 :=
  ⟨by decide, ⟨_, rfl, by decide⟩, by decide⟩
theorem witness_EveryStepKeepsTheFreshSerial :
    Regs.reset.SerialFresh ∧ ∃ t, step (State.reset.offer 0x32D) = .next t ∧ t.regs.sbad = true :=
  ⟨by decide, _, rfl, by decide⟩
theorem witness_StatusTakesFiveValues : filled.Inv ∧ doneRegs.Inv ∧ errRegs.Inv :=
  ⟨by decide, by decide, by decide⟩
theorem witness_PhaseChangesOnlyByTheTable :
    (∃ t, step ((st filled).offer 0x400) = .next t ∧ t.regs.ph ≠ filled.ph) ∧
    (∃ t, step ((st doneRegs).offer 0x100) = .next t ∧ t.regs.ph ≠ doneRegs.ph) ∧
    (filled.ph = 0 ∧ filled.encCause = 0) ∧ (Regs.reset.ph = 0 ∧ Regs.reset.encCause ≠ 0) :=
  ⟨⟨_, rfl, by decide⟩, ⟨_, rfl, by decide⟩, by decide, by decide⟩
theorem witness_RegistersAreFrozenAfterEncUntilClr :
    (doneRegs.ph = 1 ∨ doneRegs.ph = 2) ∧ (errRegs.ph = 1 ∨ errRegs.ph = 2) ∧
    (0x100 : CmdWord) ∉ [(0x235 : CmdWord), 0x400, 0x101, 0x517] := by decide
theorem witness_ResponsesDependOnTheRegistersOnly :
    (st filled).regs = ({ regs := filled, host := [.idle], rsp := some 0x042 } : State).regs := rfl
theorem witness_IdleCyclesChangeNothing : (st doneRegs).host = [] := rfl
theorem witness_ProtocolKeepingHostNeverStopsTheMachine :
    ({ regs := filled, host := [.command 0x400, .idle, .commandThenReset 0x500, .reset], rsp := none } :
      State).HostKeepsProtocol := by decide

theorem witness_ReferenceStringShape : ∃ out, Reference.encodeRef [0x31, 0x32, 0x33] [0x30] = some out := ⟨_, rfl⟩
/-- One transaction for each row of R138: 15 characters, an empty serial, a serial of 2^38, and valid strings. -/
theorem witness_TransactionEqualsTheReferenceFunction :
    ((∀ c ∈ List.replicate 15 (Instr.gch 0x31), fillsTransaction c = true) ∧ State.reset.regs = Regs.reset ∧
      14 < (gtinChars (List.replicate 15 (.gch 0x31))).length) ∧
    ((gtinChars [.gch 0x31]).length ≤ 14 ∧ serialChars [.gch 0x31] = []) ∧
    (Reference.gtinOk [] = true ∧
      Reference.serialDigits [0x32, 0x37, 0x34, 0x38, 0x37, 0x37, 0x39, 0x30, 0x36, 0x39, 0x34, 0x34] = true ∧
      2 ^ 38 ≤ Reference.decimal [0x32, 0x37, 0x34, 0x38, 0x37, 0x37, 0x39, 0x30, 0x36, 0x39, 0x34, 0x34]) ∧
    (Reference.gtinOk (gtinChars [.gch 0x31, .sch 0x37]) = true ∧
      Reference.serialOk (serialChars [.gch 0x31, .sch 0x37]) = true ∧
      (Reference.encodeRef [0x31] [0x37]).isSome = true ∧ Reference.encodeRef [0x31] [] = none) := by decide
theorem witness_EncodePseudoCommandReturnsTheReferenceString :
    (Reference.encodeRef [0x31] [0x37]).isSome = true ∧ Reference.encodeRef [0x41] [0x37] = none := by decide

theorem witness_PortResetEdgeClearsTheBlock : ({ rst := true, cmdValid := true, cmd := 0x400 } : PinIn).rst = true := rfl
theorem witness_PortHostMustHoldTheWord :
    (({ Ports.afterReset with job := some ⟨0x000, 2⟩, held := some 0x235 } : Ports).held = some 0x235 ∧
      ¬((0x236 : CmdWord) = 0x235)) ∧
    (∃ q, ({ Ports.afterReset with job := some ⟨0x000, 2⟩ } : Ports).edge ⟨false, true, 0x235⟩ = .next q) ∧
    (∃ q, ({ Ports.afterReset with job := some ⟨0x000, 2⟩ } : Ports).edge ⟨false, true, 0x236⟩ = .next q) ∧
    ({ Ports.afterReset with job := some ⟨0x000, 2⟩ } : Ports).cmdReady = false :=
  ⟨by decide, ⟨_, rfl⟩, ⟨_, rfl⟩, by decide⟩
theorem witness_PortHoldsOneCommandInFlight :
    ({ Ports.afterReset with job := some ⟨0x000, 2⟩ } : Ports).job ≠ none ∧
    (∃ q, Ports.afterReset.edge ⟨false, true, 0x000⟩ = .next q) ∧
    Ports.afterReset.accepts ⟨false, true, 0x000⟩ = true ∧
    (⟨false, true, 0x000⟩ : PinIn).rst = false ∧ (⟨false, true, 0x000⟩ : PinIn).cmdValid = true ∧
    (∃ q, ({ Ports.afterReset with job := some ⟨0x000, 1⟩ } : Ports).edge ⟨false, false, 0⟩ = .next q ∧
      q.rspValid = true) :=
  ⟨by decide, edge_completes (.inr rfl), by decide, rfl, rfl, _, rfl, rfl⟩
theorem witness_PortEdgeIsOneCommandLevelStep :
    ∃ q, ({ Ports.afterReset with job := some ⟨0x237, 1⟩ } : Ports).edge ⟨false, false, 0⟩ = .next q ∧
      q.rsp = some 0x000 ∧ q.regs.gcnt = 1 := ⟨_, rfl, rfl, by decide⟩
theorem witness_PortRunRefinesTheCommandMachine :
    ∃ q, ({ Ports.afterReset with job := some ⟨0x237, 2⟩ } : Ports).edges
      [⟨false, false, 0⟩, ⟨false, false, 0⟩, ⟨true, true, 0x400⟩] = .next q := ⟨_, rfl⟩
theorem witness_PortResponsesFollowAcceptanceOrder :
    (∀ pin ∈ [(⟨false, true, 0x237⟩ : PinIn)], pin.rst = false) ∧ Ports.afterReset.job = none ∧
    ∃ q, Ports.afterReset.edges [⟨false, true, 0x237⟩] = .next q := by
  obtain ⟨q, h⟩ := edge_completes (p := Ports.afterReset) (pin := ⟨false, true, 0x237⟩) (.inr rfl)
  exact ⟨by decide, rfl, q, by rw [Ports.edges, h]; rfl⟩
/-- Whatever `LAT` is, as many quiet edges as it asks for. -/
theorem witness_PortAnswersAfterLat :
    Ports.afterReset.cmdReady = true ∧ Ports.afterReset.held = none ∧
    ∃ pins : List PinIn, (∀ pin ∈ pins, pin.rst = false ∧ pin.cmdValid = false) ∧
      pins.length + 1 = Config.lat (opField 0x237) ∧
      ∃ q, Ports.afterReset.edges (⟨false, true, 0x237⟩ :: pins) = .next q := by
  refine ⟨rfl, rfl, List.replicate (Config.latBeyondFirst (opField 0x237)) ⟨false, false, 0⟩, ?_, ?_, ?_⟩
  · intro pin h
    rw [List.eq_of_mem_replicate h]
    exact ⟨rfl, rfl⟩
  · rw [List.length_replicate, Config.lat]
  · obtain ⟨m, h⟩ := edge_completes (p := Ports.afterReset) (pin := ⟨false, true, 0x237⟩) (.inr rfl)
    have hm : m.held = none := by
      rcases edge_cases h with ⟨-, e⟩ | ⟨-, -, ⟨_, -, -, e⟩ | ⟨_, -, -, e⟩ | ⟨-, e⟩⟩ <;> rw [e] <;> rfl
    obtain ⟨q, hq⟩ := quiet_edges_complete
      (List.replicate (Config.latBeyondFirst (opField 0x237)) ⟨false, false, 0⟩) m hm (by
        intro pin hp
        rw [List.eq_of_mem_replicate hp]
        exact ⟨rfl, rfl⟩)
    exact ⟨q, by rw [Ports.edges, h]; exact hq⟩

end Sys2Proof.Tests
end

/-! The facts about the reference function of R13 that the obligations on it need: when it is defined, the bounds of the
decimal fields, the constant top twelve bits of the value (R14) and the shape of the hexadecimal string. -/

namespace Sys2Proof.Reference

/-! ### Validity and definedness (R12, R13) -/

theorem gtinOk_iff {g : List CharCode} :
    gtinOk g = true ↔ g.length ≤ 14 ∧ ∀ c ∈ g, isDigit c = true := by
  simp [gtinOk]

theorem serialOk_iff {s : List CharCode} :
    serialOk s = true ↔ serialDigits s = true ∧ decimal s < 2 ^ 38 := by
  rw [serialOk, Bool.and_eq_true, decide_eq_true_iff]
  exact and_congr_right fun _ => by omega

theorem encodeRef_eq_none_iff {g s : List CharCode} :
    encodeRef g s = none ↔ ¬(gtinOk g = true ∧ serialOk s = true) := by
  simp [encodeRef]

theorem encodeRef_eq_some_iff {g s out : List CharCode} :
    encodeRef g s = some out ↔
      (gtinOk g = true ∧ serialOk s = true) ∧ hexString (value g s) = out := by
  simp [encodeRef]

/-! ### Decimal values (R11) -/

theorem digit_le_nine {c : CharCode} (h : isDigit c = true) : digit c ≤ 9 := by
  have hc : 48 ≤ c.toNat ∧ c.toNat ≤ 57 := of_decide_eq_true h
  rw [digit]
  omega

theorem decimal_concat (cs : List CharCode) (c : CharCode) :
    decimal (cs ++ [c]) = 10 * decimal cs + digit c := by
  simp [decimal]

/-- The induction peels the last character, the least significant digit, as `decimal` does. -/
theorem decimal_lt_pow_length {cs : List CharCode} (h : ∀ c ∈ cs, isDigit c = true) :
    decimal cs < 10 ^ cs.length := by
  induction cs using List.reverseRecOn with
  | nil => decide
  | append_singleton cs c ih =>
    have hcs : decimal cs < 10 ^ cs.length := ih fun d hd => h d (by simp [hd])
    have hc : digit c ≤ 9 := digit_le_nine (h c (by simp))
    rw [decimal_concat, List.length_append, List.length_singleton, pow_succ]
    omega

theorem decimal_take_lt_pow {cs : List CharCode} (n : Nat) (h : ∀ c ∈ cs, isDigit c = true) :
    decimal (cs.take n) < 10 ^ n :=
  calc decimal (cs.take n) < 10 ^ (cs.take n).length :=
        decimal_lt_pow_length fun c hc => h c (List.mem_of_mem_take hc)
    _ ≤ 10 ^ n := Nat.pow_le_pow_right (by decide) (List.length_take_le n cs)

/-! ### The fields of the GTIN (R13 steps 1 to 4) -/

theorem isDigit_of_mem_withoutCheckDigit {g : List CharCode} (h : gtinOk g = true) :
    ∀ c ∈ withoutCheckDigit g, isDigit c = true := by
  intro c hc
  rcases List.mem_append.mp (List.mem_of_mem_take hc) with hpad | hg
  · rw [List.eq_of_mem_replicate hpad]
    decide
  · exact (gtinOk_iff.mp h).2 c hg

theorem companyPrefix_lt {g : List CharCode} (h : gtinOk g = true) : companyPrefix g < 10 ^ 7 :=
  decimal_take_lt_pow 7 fun c hc => isDigit_of_mem_withoutCheckDigit h c (List.mem_of_mem_drop hc)

theorem itemReference_lt {g : List CharCode} (h : gtinOk g = true) : itemReference g < 10 ^ 5 :=
  decimal_take_lt_pow 5 fun c hc => isDigit_of_mem_withoutCheckDigit h c (List.mem_of_mem_drop hc)

/-! ### The fixed fields (R14) -/

/-- R14: the top 12 of the 96 bits are the header 0x30, the filter 001 and the top bit of the partition 101, because the
three decimal fields fit below bit 82. -/
theorem value_shiftRight_eq_fixedFields {g s : List CharCode} (hg : gtinOk g = true) (hs : serialOk s = true) :
    value g s >>> 84 = 0x303 := by
  have hcp : (companyPrefix g <<< 58) >>> 84 = 0 := by
    have := companyPrefix_lt hg
    rw [Nat.shiftLeft_eq, Nat.shiftRight_eq_div_pow]
    omega
  have hir : (itemReference g <<< 38) >>> 84 = 0 := by
    have := itemReference_lt hg
    rw [Nat.shiftLeft_eq, Nat.shiftRight_eq_div_pow]
    omega
  have hsn : decimal s >>> 84 = 0 := by
    have := (serialOk_iff.mp hs).2
    rw [Nat.shiftRight_eq_div_pow]
    omega
  simp only [value, Nat.shiftRight_or_distrib, hcp, hir, hsn]
  decide

/-! ### The hexadecimal string (R13 step 7) -/

theorem hexDigit_mem_alphabet :
    ∀ n < 16, (0x30 ≤ hexDigit n ∧ hexDigit n ≤ 0x39) ∨ (0x41 ≤ hexDigit n ∧ hexDigit n ≤ 0x46) := by
  decide

theorem hexString_length (v : Nat) : (hexString v).length = 24 := by
  simp [hexString]

theorem hexString_mem_alphabet {v : Nat} {ch : CharCode} (h : ch ∈ hexString v) :
    (0x30 ≤ ch ∧ ch ≤ 0x39) ∨ (0x41 ≤ ch ∧ ch ≤ 0x46) := by
  obtain ⟨i, -, rfl⟩ := List.mem_map.mp h
  exact hexDigit_mem_alphabet _ (Nat.mod_lt _ (by decide))

/-- The first three characters show the bits from 84 up. -/
theorem hexString_take_three (v : Nat) :
    (hexString v).take 3 =
      [hexDigit ((v >>> 84) / 256 % 16), hexDigit ((v >>> 84) / 16 % 16), hexDigit ((v >>> 84) % 16)] := by
  simp only [Nat.shiftRight_eq_div_pow, Nat.div_div_eq_div_mul]
  rfl

end Sys2Proof.Reference

namespace Sys2Proof

/-- Settles O49: the definedness is R12's, the length and the alphabet are those of every `hexString`, and the first three
characters show the fixed fields. -/
theorem referenceStringShape : Obligations.ReferenceStringShape := by
  intro g s
  refine ⟨Reference.encodeRef_eq_none_iff, fun out hout => ?_⟩
  obtain ⟨⟨hg, hs⟩, rfl⟩ := Reference.encodeRef_eq_some_iff.mp hout
  refine ⟨Reference.hexString_length _, fun ch => Reference.hexString_mem_alphabet, ?_⟩
  rw [Reference.hexString_take_three, Reference.value_shiftRight_eq_fixedFields hg hs]
  decide

end Sys2Proof

/-! What a command, a step and an exchange do to the registers: one inversion lemma for each, the frames and reads of R37,
and the invariants of R33 that a step keeps. -/

namespace Sys2Proof.Machine

/-! ### Words -/

theorem opField_append (op : BitVec 4) (d : BitVec 8) : opField (op ++ d) = op :=
  BitVec.extractLsb'_append_eq_left

theorem dataField_append (op : BitVec 4) (d : BitVec 8) : dataField (op ++ d) = d :=
  BitVec.extractLsb'_append_eq_right

theorem opField_toNat (w : CmdWord) : (opField w).toNat = w.toNat / 256 := by
  have := w.isLt
  rw [opField, BitVec.extractLsb'_toNat, Nat.shiftRight_eq_div_pow]
  omega

theorem dataField_toNat (w : CmdWord) : (dataField w).toNat = w.toNat % 256 := by
  rw [dataField, BitVec.extractLsb'_toNat, Nat.shiftRight_zero]

/-- A word is its two fields (R70). -/
theorem eq_of_fields {w v : CmdWord} (hop : opField w = opField v) (hdata : dataField w = dataField v) : w = v := by
  have hdiv := congrArg BitVec.toNat hop
  have hmod := congrArg BitVec.toNat hdata
  rw [opField_toNat, opField_toNat] at hdiv
  rw [dataField_toNat, dataField_toNat] at hmod
  exact BitVec.eq_of_toNat_eq (by omega)

/-- Decoding undoes encoding (R73, R75). -/
theorem decode_encode {i : Instr} (h : WellFormed i) : decode (encode i) = .legal i := by
  rw [decode, encode, opField_append, dataField_append]
  cases i with
  | nop | clr | gch | sch | enc => rfl
  | hex idx => revert idx; decide
  | rds sel => revert sel; decide

/-! ### Commands -/

theorem exec_completes (i : Instr) (s : State) : ∃ t, exec i s = .next t := by
  rw [exec_eq_guarded, guarded]
  split_ifs <;> exact ⟨_, rfl⟩

/-- A command that answers is executed or leaves every register; the host's moves stay in both cases. -/
theorem exec_regs_host {i : Instr} {s t : State} (h : exec i s = .next t) :
    (t.regs = (effectOf i s).regs ∨ t.regs = s.regs) ∧ t.host = s.host := by
  obtain ⟨-, -, rfl⟩ | ⟨-, -, rfl⟩ | ⟨-, rfl⟩ := exec_cases h
  · exact ⟨.inl rfl, effectOf_host i s⟩
  · exact ⟨.inr rfl, rfl⟩
  · exact ⟨.inr rfl, rfl⟩

/-- A command whose effect leaves the registers leaves them when it is refused, too. -/
theorem exec_keeps_regs {i : Instr} {s t : State} (heffect : (effectOf i s).regs = s.regs)
    (h : exec i s = .next t) : t.regs = s.regs ∧ t.host = s.host := by
  obtain ⟨hregs | hregs, hhost⟩ := exec_regs_host h
  · exact ⟨hregs.trans heffect, hhost⟩
  · exact ⟨hregs, hhost⟩

/-- In two states of the same phase a command is executed in both, or refused in both with the same answer. -/
theorem exec_agrees {i : Instr} {s s' t t' : State} (hph : s.regs.ph = s'.regs.ph)
    (h : exec i s = .next t) (h' : exec i s' = .next t') :
    (t = effectOf i s ∧ t' = effectOf i s') ∨ (t.regs = s.regs ∧ t'.regs = s'.regs ∧ t.rsp = t'.rsp) := by
  rw [exec_eq_guarded] at h h'
  cases hw : wellFormed i with
  | false =>
    rw [guarded_illegal _ hw] at h h'
    cases h; cases h'
    exact .inr ⟨rfl, rfl, rfl⟩
  | true =>
    cases ha : allowed i s.regs.ph with
    | true =>
      rw [guarded_executes _ hw ha] at h
      rw [guarded_executes _ hw (hph ▸ ha)] at h'
      cases h; cases h'
      exact .inl ⟨rfl, rfl⟩
    | false =>
      rw [guarded_refuses _ hw ha] at h
      rw [guarded_refuses _ hw (hph ▸ ha)] at h'
      cases h; cases h'
      exact .inr ⟨rfl, rfl, rfl⟩

theorem encodeNow_rsp (s : State) : (encodeNow s).rsp =
    some (if s.regs.encCause = Cause.none then 0x000 else Code.err ++ s.regs.encCause.setWidth 8) := by
  rcases encodeNow_cases s with ⟨hc, h⟩ | ⟨hc, h⟩
  · rw [h, if_pos hc]; rfl
  · rw [h, if_neg hc]; rfl

/-- R196: the answer of an executed `ENC` is a function of the cause. -/
theorem effectOf_enc_rsp_congr {s s' : State} (h : s.regs.encCause = s'.regs.encCause) :
    (effectOf .enc s).rsp = (effectOf .enc s').rsp := by
  rw [effectOf, effectOf, encodeNow_rsp, encodeNow_rsp, h]

/-- R23, R102, R103: the code reads the window at the positions 1 to 12 only. -/
theorem code_congr {r r' : Regs} (hg : ∀ i : Fin 14, i.val ≠ 0 → i.val ≠ 13 → r.g[i] = r'.g[i])
    (hs : r.sacc = r'.sacc) : r.code = r'.code := by
  have hat (i : Nat) (h0 : 0 < i) (h13 : i < 13) : r.g[i] = r'.g[i] :=
    hg ⟨i, by omega⟩ (by simp; omega) (by simp; omega)
  simp only [Regs.code, cpval, irval, hs, hat, Nat.reduceLT]

theorem encCause_congr {r r' : Regs} (hn : r.gcnt = r'.gcnt) (hgb : r.gbad = r'.gbad) (hne : r.sne = r'.sne)
    (hsb : r.sbad = r'.sbad) (hso : r.sovf = r'.sovf) : r.encCause = r'.encCause := by
  simp only [Regs.encCause, hn, hgb, hne, hsb, hso]

/-! ### Steps -/

/-- What one step can make of the registers `r`: nothing, a reset, or one of the four writes of COLLECT. -/
inductive Regs.StepsTo (r : Regs) : Regs → Prop
  | unchanged : r.StepsTo r
  | reset : r.StepsTo Regs.reset
  | gtin (c : CharCode) (hph : r.ph = 0) : r.StepsTo (pushGtin c r)
  | serial (c : CharCode) (hph : r.ph = 0) : r.StepsTo (pushSerial c r)
  | encoded (hph : r.ph = 0) (hc : r.encCause = Cause.none) :
      r.StepsTo { r with epc := r.code, ph := Phase.done }
  | failed (hph : r.ph = 0) (hc : r.encCause ≠ Cause.none) :
      r.StepsTo { r with ph := Phase.err, cause := r.encCause }

theorem effectOf_stepsTo {i : Instr} {s : State} (ha : allowed i s.regs.ph = true) :
    s.regs.StepsTo (effectOf i s).regs := by
  rw [effectOf_regs]
  cases i with
  | nop | hex | rds => exact .unchanged
  | clr => exact .reset
  | gch c => exact .gtin c (eq_of_beq ha)
  | sch c => exact .serial c (eq_of_beq ha)
  | enc =>
    dsimp only
    split
    · exact .encoded (eq_of_beq ha) ‹_›
    · exact .failed (eq_of_beq ha) ‹_›

theorem exec_stepsTo {i : Instr} {s t : State} (h : exec i s = .next t) : s.regs.StepsTo t.regs := by
  obtain ⟨-, ha, rfl⟩ | ⟨-, -, rfl⟩ | ⟨-, rfl⟩ := exec_cases h
  · exact effectOf_stepsTo ha
  · exact .unchanged
  · exact .unchanged

theorem runWord_stepsTo {w : CmdWord} {s t : State} (h : runWord w s = .next t) : s.regs.StepsTo t.regs := by
  cases hd : decode w with
  | legal i => rw [runWord_legal hd] at h; exact exec_stepsTo h
  | illegal why => rw [runWord_illegal hd] at h; cases h; exact .unchanged

/-- The inversion of `step` on the registers, from which every invariant of R33 follows. -/
theorem step_stepsTo {s t : State} (h : step s = .next t) : s.regs.StepsTo t.regs := by
  cases hh : s.host with
  | nil => rw [step_no_move hh] at h; cases h; exact .unchanged
  | cons m rest =>
    cases m with
    | idle => rw [step_idle hh] at h; cases h; exact .unchanged
    | command w => rw [step_command hh] at h; exact runWord_stepsTo (s := { s with host := rest }) h
    | reset => rw [step_reset hh] at h; cases h; exact .reset
    | commandThenReset w => rw [step_commandThenReset hh] at h; cases h; exact .reset
    | changeWhileWaiting w => simp [step, hh] at h
    | missResponse w => simp [step, hh] at h

/-! ### The invariants of R33 -/

theorem reset_inv : Regs.reset.Inv := by decide
theorem reset_latched : Regs.reset.Latched := by decide
theorem reset_padded : Regs.reset.Padded := by decide
theorem reset_serialFresh : Regs.reset.SerialFresh := by decide

/-- What R33 items 1 to 5 say in COLLECT. -/
theorem inv_iff_of_collect {r : Regs} (hph : r.ph = 0) :
    r.Inv ↔ r.cause = 0 ∧ r.epc = 0 ∧ ∀ i : Fin 14, r.g[i] ≤ 9 := by
  simp [Regs.Inv, hph]

theorem pushGtin_g (c : CharCode) (r : Regs) :
    (pushGtin c r).g = if isdigit c && decide (r.gcnt < 14) then shiftIn r.g (dval c) else r.g := rfl

/-- R33 item 5: a shift brings in only the digit pushed. -/
theorem shiftIn_le_nine {g : Window} {d : Digit} (hg : ∀ i : Fin 14, g[i] ≤ 9) (hd : d ≤ 9) (i : Fin 14) :
    (shiftIn g d)[i] ≤ 9 := by
  by_cases hi : i.val < 13
  · have hshift : (shiftIn g d)[i] = g[i.val + 1] := shiftIn_getElem g d i.val hi
    rw [hshift]
    exact hg ⟨i.val + 1, by omega⟩
  · obtain rfl : i = 13 := Fin.ext (by simp; omega)
    exact hd

theorem pushGtin_g_le_nine {r : Regs} (c : CharCode) (hg : ∀ i : Fin 14, r.g[i] ≤ 9) (i : Fin 14) :
    (pushGtin c r).g[i] ≤ 9 := by
  rw [pushGtin_g]
  split
  case isTrue h => exact shiftIn_le_nine hg (dval_le_nine (Bool.and_eq_true_iff.mp h).1) i
  case isFalse => exact hg i

/-- A successful `ENC` makes item 4 true: the constants come from `pack96`, the flags from cause 0. -/
theorem encoded_inv {r : Regs} (hph : r.ph = 0) (hc : r.encCause = Cause.none) (h : r.Inv) :
    Regs.Inv { r with epc := r.code, ph := Phase.done } := by
  obtain ⟨hcause, -, hg⟩ := (inv_iff_of_collect hph).mp h
  obtain ⟨hn, hgb, hsb, hne, hso⟩ := (encCause_eq_none_iff _ _ _ _ _).mp hc
  have hn14 : r.gcnt ≤ 14 := by bv_omega
  exact ⟨.inr (.inl rfl), by simp [hcause], by simp,
    fun _ => ⟨pack96_top _ _ _, hgb, hsb, hso, hne, hn14⟩, hg⟩

theorem failed_inv {r : Regs} (hph : r.ph = 0) (hc : r.encCause ≠ Cause.none) (h : r.Inv) :
    Regs.Inv { r with ph := Phase.err, cause := r.encCause } := by
  obtain ⟨-, hepc, hg⟩ := (inv_iff_of_collect hph).mp h
  exact ⟨.inr (.inr rfl), by simpa using hc, fun _ => hepc, by simp, hg⟩

theorem stepsTo_keeps_inv {r r' : Regs} (hstep : r.StepsTo r') (h : r.Inv) : r'.Inv := by
  cases hstep with
  | unchanged => exact h
  | reset => exact reset_inv
  | gtin c hph =>
    obtain ⟨hcause, hepc, hg⟩ := (inv_iff_of_collect hph).mp h
    exact (inv_iff_of_collect (r := pushGtin c r) hph).mpr ⟨hcause, hepc, pushGtin_g_le_nine c hg⟩
  | serial c hph => exact (inv_iff_of_collect (r := pushSerial c r) hph).mpr ((inv_iff_of_collect hph).mp h)
  | encoded hph hc => exact encoded_inv hph hc h
  | failed hph hc => exact failed_inv hph hc h

/-- Only a successful `ENC` enters DONE, and it latches the code of the inputs it leaves. -/
theorem stepsTo_keeps_latched {r r' : Regs} (hstep : r.StepsTo r') (h : r.Latched) : r'.Latched := by
  cases hstep with
  | unchanged => exact h
  | reset => exact reset_latched
  | gtin c hph => intro hdone; rw [pushGtin_ph, hph] at hdone; cases hdone
  | serial c hph => intro hdone; rw [pushSerial_ph, hph] at hdone; cases hdone
  | encoded => exact fun _ => rfl
  | failed => intro hdone; cases hdone

/-- Every serial push sets `SNE`; the other writes leave the serial registers or clear them all. -/
theorem stepsTo_keeps_serialFresh {r r' : Regs} (hstep : r.StepsTo r') (h : r.SerialFresh) : r'.SerialFresh := by
  cases hstep with
  | unchanged | gtin | encoded | failed => exact h
  | reset => exact reset_serialFresh
  | serial c => intro hsne; cases hsne

/-! ### Exchanges -/

/-- The registers after a list of words. -/
def regsAfter (ws : List CmdWord) (r : Regs) : Regs := ws.foldl (fun r w => (transition w r).1) r

/-- The responses to a list of words. -/
def responsesTo : List CmdWord → Regs → List RspWord
  | [], _ => []
  | w :: ws, r => (transition w r).2 :: responsesTo ws (transition w r).1

theorem responsesTo_length (ws : List CmdWord) (r : Regs) : (responsesTo ws r).length = ws.length := by
  induction ws generalizing r with
  | nil => rfl
  | cons w ws ih => simp [responsesTo, ih]

/-- Every exchange completes; its responses and the registers after it are functions of the registers before it (R34). -/
theorem exchange_completes (ws : List CmdWord) (s : State) :
    ∃ t, exchange ws s = some (responsesTo ws s.regs, t) ∧ t.regs = regsAfter ws s.regs ∧ t.host = s.host := by
  induction ws generalizing s with
  | nil => exact ⟨s, rfl, rfl, rfl⟩
  | cons w ws ih =>
    obtain ⟨t, hex, hregs, hhost⟩ := ih { s with regs := (transition w s.regs).1, rsp := some (transition w s.regs).2 }
    refine ⟨t, ?_, hregs, hhost⟩
    rw [exchange_cons (runWord_eq w s) rfl, hex]
    rfl

/-! ### The frozen phases (R31, R199) -/

/-- `CLR` has one opcode and one data byte (R73). -/
theorem decodeFields_clr {op : BitVec 4} {d : BitVec 8} (h : decodeFields op d = .legal .clr) : op = 1 ∧ d = 0 := by
  by_cases hop : op = 1
  · exact ⟨hop, by simpa [decodeFields, decodePlain, hop] using h⟩
  · simp only [decodeFields, decodePlain, decodeHex, decodeRds, hop, if_false] at h
    split_ifs at h <;> cases h

/-- `CLR` has one word (R75). -/
theorem eq_of_decode_clr {w : CmdWord} (h : decode w = .legal .clr) : w = 0x100 :=
  have ⟨hop, hdata⟩ := decodeFields_clr h
  eq_of_fields hop hdata

/-- Outside COLLECT only the word of `CLR` or a reset writes a register. -/
theorem transition_regs_of_not_collect {w : CmdWord} {r : Regs} (hph : r.ph ≠ 0) (hw : w ≠ 0x100) :
    (transition w r).1 = r := by
  unfold transition
  split
  · rfl
  · next i hd =>
    split
    · next ha =>
      rw [effectOf_regs]
      cases i with
      | nop | hex | rds => rfl
      | clr => exact absurd (eq_of_decode_clr hd) hw
      | gch | sch | enc => exact absurd (eq_of_beq ha) hph
    · rfl

theorem regsAfter_of_not_collect {ws : List CmdWord} {r : Regs} (hph : r.ph ≠ 0) (hws : 0x100 ∉ ws) :
    regsAfter ws r = r := by
  induction ws with
  | nil => rfl
  | cons w ws ih =>
    obtain ⟨hw, hws⟩ := not_or.mp (mt List.mem_cons.mpr hws)
    rw [regsAfter, List.foldl_cons, transition_regs_of_not_collect hph (Ne.symm hw)]
    exact ih hws

/-! ### The fill of a transaction (R33 items 6 and 7) -/

/-- The registers after a string of GTIN characters. -/
def pushGtins (cs : List CharCode) (r : Regs) : Regs := cs.foldl (fun r c => pushGtin c r) r

/-- The registers after a string of serial characters. -/
def pushSerials (cs : List CharCode) (r : Regs) : Regs := cs.foldl (fun r c => pushSerial c r) r

@[simp] theorem pushGtins_nil (r : Regs) : pushGtins [] r = r := rfl

@[simp] theorem pushSerials_nil (r : Regs) : pushSerials [] r = r := rfl

@[simp] theorem pushGtins_cons (c : CharCode) (cs : List CharCode) (r : Regs) :
    pushGtins (c :: cs) r = pushGtins cs (pushGtin c r) := rfl

@[simp] theorem pushSerials_cons (c : CharCode) (cs : List CharCode) (r : Regs) :
    pushSerials (c :: cs) r = pushSerials cs (pushSerial c r) := rfl

theorem pushGtins_concat (cs : List CharCode) (c : CharCode) (r : Regs) :
    pushGtins (cs ++ [c]) r = pushGtin c (pushGtins cs r) := by
  simp [pushGtins]

theorem pushSerials_concat (cs : List CharCode) (c : CharCode) (r : Regs) :
    pushSerials (cs ++ [c]) r = pushSerial c (pushSerials cs r) := by
  simp [pushSerials]

/-- R37: GTIN characters write `G`, `GCNT` and `GBAD` only. -/
theorem pushGtins_frame (cs : List CharCode) (r : Regs) :
    pushGtins cs r = { r with g := (pushGtins cs r).g, gcnt := (pushGtins cs r).gcnt,
                              gbad := (pushGtins cs r).gbad } := by
  induction cs generalizing r with
  | nil => rfl
  | cons c cs ih => exact ih (pushGtin c r)

/-- R37: serial characters write `SACC`, `SNE`, `SBAD` and `SOVF` only. -/
theorem pushSerials_frame (cs : List CharCode) (r : Regs) :
    pushSerials cs r = { r with sacc := (pushSerials cs r).sacc, sne := (pushSerials cs r).sne,
                                sbad := (pushSerials cs r).sbad, sovf := (pushSerials cs r).sovf } := by
  induction cs generalizing r with
  | nil => rfl
  | cons c cs ih => exact ih (pushSerial c r)

/-- A serial character may be pushed before or after GTIN characters: the two write and read disjoint registers. -/
theorem pushGtins_pushSerial (cs : List CharCode) (c : CharCode) (r : Regs) :
    pushGtins cs (pushSerial c r) = pushSerial c (pushGtins cs r) := by
  induction cs generalizing r with
  | nil => rfl
  | cons d cs ih => exact ih (pushGtin d r)

theorem transition_encode {i : Instr} {r : Regs} (hw : WellFormed i) (ha : allowed i r.ph = true) :
    (transition (encode i) r).1 = (effectOf i { regs := r, host := [], rsp := none }).regs := by
  rw [transition, decode_encode hw]
  simp [ha]

/-- In COLLECT any interleaving of pushes, `NOP` and `RDS` amounts to its GTIN string and then its serial string (R51,
R138). -/
theorem regsAfter_wordsOf {cs : List Instr} (hcs : ∀ i ∈ cs, fillsTransaction i = true) {r : Regs}
    (hph : r.ph = Phase.collect) :
    regsAfter (wordsOf cs) r = pushSerials (serialChars cs) (pushGtins (gtinChars cs) r) := by
  induction cs generalizing r with
  | nil => rfl
  | cons i cs ih =>
    obtain ⟨hi, htail⟩ := List.forall_mem_cons.mp hcs
    have hstep (hw : WellFormed i) (ha : allowed i r.ph = true) : regsAfter (wordsOf (i :: cs)) r =
        regsAfter (wordsOf cs) (effectOf i { regs := r, host := [], rsp := none }).regs :=
      congrArg (regsAfter (wordsOf cs)) (transition_encode hw ha)
    cases i with
    | nop => rw [hstep rfl rfl]; exact ih htail hph
    | rds sel => rw [hstep hi rfl]; exact ih htail hph
    | gch c => rw [hstep rfl (beq_iff_eq.mpr hph)]; exact ih htail hph
    | sch c =>
      rw [hstep rfl (beq_iff_eq.mpr hph)]
      refine (ih (r := pushSerial c r) htail hph).trans ?_
      rw [pushGtins_pushSerial]
      rfl
    | clr | enc | hex => cases hi

theorem pushGtins_gcnt (cs : List CharCode) (r : Regs) :
    (pushGtins cs r).gcnt.toNat = min (r.gcnt.toNat + cs.length) 15 := by
  induction cs generalizing r with
  | nil =>
    have := r.gcnt.isLt
    simp only [pushGtins_nil, List.length_nil]
    omega
  | cons c cs ih =>
    rw [pushGtins_cons, ih, pushGtin_gcnt, gcntNext_toNat, List.length_cons]
    omega

theorem pushGtins_gbad (cs : List CharCode) (r : Regs) :
    (pushGtins cs r).gbad = (r.gbad || cs.any fun c => !Reference.isDigit c) := by
  induction cs generalizing r with
  | nil => simp
  | cons c cs ih => simp [ih, gbadNext, isdigit_eq_reference, Bool.or_assoc]

theorem pushSerials_sne (cs : List CharCode) (r : Regs) :
    (pushSerials cs r).sne = (r.sne || decide (1 ≤ cs.length)) := by
  induction cs generalizing r with
  | nil => simp
  | cons c cs ih => simp [ih]

theorem pushSerials_sbad (cs : List CharCode) (r : Regs) :
    (pushSerials cs r).sbad = (r.sbad || cs.any fun c => !Reference.isDigit c) := by
  induction cs generalizing r with
  | nil => simp
  | cons c cs ih => simp [ih, sbadNext, isdigit_eq_reference, Bool.or_assoc]

/-- R101: below 14 characters a digit shifts the window. -/
theorem pushGtin_g_of_digit {c : CharCode} {r : Regs} (hc : isdigit c = true) (hn : r.gcnt.toNat < 14) :
    (pushGtin c r).g = shiftIn r.g (dval c) := by
  have hpush : (isdigit c && decide (r.gcnt < 14)) = true := by
    rw [hc, Bool.true_and]
    exact decide_eq_true hn
  rw [pushGtin_g, if_pos hpush]

/-- R13 step 1: one more character takes the place of one padding zero. -/
theorem padded_concat {cs : List CharCode} (hlen : cs.length < 14) (c : CharCode) :
    Reference.padded (cs ++ [c]) = (Reference.padded cs).drop 1 ++ [c] := by
  have hpad : 14 - cs.length = 13 - cs.length + 1 := by omega
  simp [Reference.padded, hpad, List.replicate_succ]

/-- R33 item 6: a string of at most 14 digits stands in the window, left-padded. The induction peels the last
character, which stands at `G[13]`. -/
theorem pushGtins_g {cs : List CharCode} (hlen : cs.length ≤ 14) (hdigits : cs.all Reference.isDigit = true) :
    (pushGtins cs Regs.reset).g.toList.map BitVec.toNat = (Reference.padded cs).map Reference.digit := by
  induction cs using List.reverseRecOn with
  | nil => decide
  | append_singleton cs c ih =>
    rw [List.length_append, List.length_singleton] at hlen
    simp only [List.all_append, List.all_cons, List.all_nil, Bool.and_true, Bool.and_eq_true] at hdigits
    obtain ⟨hcs, hc⟩ := hdigits
    rw [← isdigit_eq_reference] at hc
    have hn : (pushGtins cs Regs.reset).gcnt.toNat < 14 := by
      have h0 : Regs.reset.gcnt.toNat = 0 := rfl
      rw [pushGtins_gcnt, h0]
      omega
    rw [pushGtins_concat, pushGtin_g_of_digit hc hn, shiftIn_toList, padded_concat (by omega), List.map_append,
      List.map_append, List.map_drop, List.map_drop, ih (by omega) hcs, List.map_singleton, List.map_singleton,
      dval_toNat hc, Reference.digit]

/-- R33 item 7: `SACC` is the value of the digits modulo 2^38, and `SOVF` says that the value is not below 2^38. Once it is
not, it stays so, because one more digit only makes it larger. -/
theorem pushSerials_value {r : Regs} (hacc : r.sacc = 0) (hovf : r.sovf = false) (cs : List CharCode) :
    (pushSerials cs r).sacc.toNat = Reference.decimal (cs.filter Reference.isDigit) % 2 ^ 38 ∧
    ((pushSerials cs r).sovf = true ↔ 2 ^ 38 ≤ Reference.decimal (cs.filter Reference.isDigit)) := by
  induction cs using List.reverseRecOn with
  | nil => simp [hacc, hovf, Reference.decimal]
  | append_singleton cs c ih =>
    obtain ⟨ihacc, ihovf⟩ := ih
    rw [pushSerials_concat, pushSerial_sacc, pushSerial_sovf, List.filter_append]
    cases hc : isdigit c with
    | true =>
      have hfilter : [c].filter Reference.isDigit = [c] := by simp [← isdigit_eq_reference, hc]
      rw [saccNext_of_digit _ hc, sovfNext_of_digit _ _ hc, hfilter, Reference.decimal_concat, Reference.digit,
        Bool.or_eq_true, decide_eq_true_iff, ihovf, ihacc]
      omega
    | false =>
      have hfilter : [c].filter Reference.isDigit = [] := by simp [← isdigit_eq_reference, hc]
      rw [saccNext_of_not_digit _ hc, sovfNext_of_not_digit _ _ hc, hfilter, List.append_nil]
      exact ⟨ihacc, ihovf⟩

/-- The fill of a transaction from the reset registers is answered command by command and leaves what its two strings
leave. -/
theorem exchange_fill {cs : List Instr} {s : State} (hcs : ∀ i ∈ cs, fillsTransaction i = true)
    (hs : s.regs = Regs.reset) : ∃ rs t, exchange (wordsOf cs) s = some (rs, t) ∧ rs.length = cs.length ∧
      t.regs = pushSerials (serialChars cs) (pushGtins (gtinChars cs) Regs.reset) := by
  obtain ⟨t, hex, hregs, -⟩ := exchange_completes (wordsOf cs) s
  refine ⟨_, t, hex, by simp [responsesTo_length, wordsOf], ?_⟩
  rw [hregs, hs]
  exact regsAfter_wordsOf hcs rfl

end Sys2Proof.Machine

namespace Sys2Proof

open Machine

/-- Settles O36: every write a step can make keeps the five items. -/
theorem everyStepKeepsTheRegisterInvariant : Obligations.EveryStepKeepsTheRegisterInvariant :=
  fun _ _ hinv hstep => stepsTo_keeps_inv (step_stepsTo hstep) hinv

/-- Settles O37: only `ENC` enters DONE, with the code of the inputs, and the pushes run in COLLECT only. -/
theorem everyStepKeepsTheLatchedCode : Obligations.EveryStepKeepsTheLatchedCode :=
  fun _ _ hlatched hstep => stepsTo_keeps_latched (step_stepsTo hstep) hlatched

/-- Settles O39: the only writes to the serial registers are a push, which sets `SNE`, and clearing them all. -/
theorem everyStepKeepsTheFreshSerial : Obligations.EveryStepKeepsTheFreshSerial :=
  fun _ _ hfresh hstep => stepsTo_keeps_serialFresh (step_stepsTo hstep) hfresh

/-- Settles O9: serial characters leave the GTIN registers, which the GTIN string alone determines. -/
theorem gtinRegistersTrackThePushedString : Obligations.GtinRegistersTrackThePushedString := by
  intro cs s hcs hs
  obtain ⟨rs, t, hex, hlen, hregs⟩ := exchange_fill hcs hs
  rw [pushSerials_frame] at hregs
  refine ⟨rs, t, hex, hlen, ?_, ?_, fun hlen hdigits => ?_⟩
  · rw [hregs, pushGtins_gcnt]
    simp [Regs.reset]
  · rw [hregs, pushGtins_gbad]
    rfl
  · rw [hregs]
    exact pushGtins_g hlen hdigits

/-- Settles O10: GTIN characters leave the serial registers, which the serial string alone determines. -/
theorem serialRegistersTrackThePushedString : Obligations.SerialRegistersTrackThePushedString := by
  intro cs s hcs hs
  obtain ⟨rs, t, hex, hlen, hregs⟩ := exchange_fill hcs hs
  rw [pushGtins_frame] at hregs
  refine ⟨rs, t, hex, hlen, ?_, ?_, ?_⟩
  · rw [hregs, pushSerials_sne]
    rfl
  · rw [hregs, pushSerials_sbad]
    rfl
  · rw [hregs]
    exact pushSerials_value rfl rfl _

/-- Settles O16: the code and the cause of `ENC` are equal in the two states. -/
theorem indicatorAndCheckDigitAreIgnored : Obligations.IndicatorAndCheckDigitAreIgnored := by
  intro s s' hg hregs
  have hcode : s.regs.code = s'.regs.code := code_congr hg (congrArg Regs.sacc hregs :)
  have hcause : s.regs.encCause = s'.regs.encCause := by rw [hregs]; rfl
  have hph : s.regs.ph = s'.regs.ph := (congrArg Regs.ph hregs :)
  have hc : s.regs.cause = s'.regs.cause := (congrArg Regs.cause hregs :)
  have hepc : s.regs.epc = s'.regs.epc := (congrArg Regs.epc hregs :)
  obtain ⟨t, ht⟩ := exec_completes .enc s
  obtain ⟨t', ht'⟩ := exec_completes .enc s'
  refine ⟨t, t', ht, ht', ?_⟩
  obtain ⟨rfl, rfl⟩ | ⟨h, h', hrsp⟩ := exec_agrees hph ht ht'
  · refine ⟨effectOf_enc_rsp_congr hcause, ?_⟩
    rw [effectOf_regs, effectOf_regs, ← hcause, ← hcode]
    dsimp only
    split
    · exact ⟨rfl, rfl, hc⟩
    · exact ⟨hepc, rfl, rfl⟩
  · rw [h, h']
    exact ⟨hrsp, hepc, hph, hc⟩

/-- Settles O33: a refused command writes no register, an executed one those of its effect. -/
theorem everyCommandKeepsItsFrame : Obligations.EveryCommandKeepsItsFrame := by
  refine ⟨fun _ _ => exec_keeps_regs rfl, fun _ _ _ => exec_keeps_regs rfl, fun _ _ _ => exec_keeps_regs rfl,
    ?gch, ?sch, ?enc, fun _ _ h => (exec_regs_host h).2⟩
  case gch =>
    intro c s t h
    obtain ⟨hregs | hregs, hhost⟩ := exec_regs_host h
    · exact ⟨by rw [hregs]; rfl, hhost⟩
    · exact ⟨by rw [hregs], hhost⟩
  case sch =>
    intro c s t h
    obtain ⟨hregs | hregs, hhost⟩ := exec_regs_host h
    · exact ⟨by rw [hregs]; rfl, hhost⟩
    · exact ⟨by rw [hregs], hhost⟩
  case enc =>
    intro s t h
    obtain ⟨hregs | hregs, hhost⟩ := exec_regs_host h
    · refine ⟨?_, hhost⟩
      rw [hregs, effectOf_regs]
      dsimp only
      split <;> rfl
    · exact ⟨by rw [hregs], hhost⟩

/-- Settles O34: in two states of one phase a command is executed in both, and then its answer and its writes are functions
of the registers named, or refused in both. -/
theorem everyCommandReadsOnlyItsRegisters : Obligations.EveryCommandReadsOnlyItsRegisters := by
  intro s s' t t'
  refine ⟨?nop, ?clr, ?gch, ?sch, ?enc, ?hex, ?rds⟩
  case nop =>
    intro h h'
    cases h; cases h'
    rfl
  case clr =>
    intro h h'
    cases h; cases h'
    exact ⟨rfl, rfl⟩
  case gch =>
    intro c hph hg hn h h'
    obtain ⟨rfl, rfl⟩ | ⟨e, e', hrsp⟩ := exec_agrees hph h h'
    · exact ⟨rfl, by simp only [effectOf_regs, pushGtin, hg, hn], by simp only [effectOf_regs, pushGtin, hn]⟩
    · rw [e, e']
      exact ⟨hrsp, hg, hn⟩
  case sch =>
    intro c hph hacc hovf h h'
    obtain ⟨rfl, rfl⟩ | ⟨e, e', hrsp⟩ := exec_agrees hph h h'
    · exact ⟨rfl, by simp only [effectOf_regs, pushSerial, hacc], by simp only [effectOf_regs, pushSerial, hacc, hovf]⟩
    · rw [e, e']
      exact ⟨hrsp, hacc, hovf⟩
  case enc =>
    intro hph hg hn hgb hacc hne hsb hso h h'
    have hcode : s.regs.code = s'.regs.code := code_congr hg hacc
    have hcause : s.regs.encCause = s'.regs.encCause := encCause_congr hn hgb hne hsb hso
    obtain ⟨rfl, rfl⟩ | ⟨e, e', hrsp⟩ := exec_agrees hph h h'
    · refine ⟨effectOf_enc_rsp_congr hcause, ?_⟩
      rw [effectOf_regs, effectOf_regs, ← hcause, ← hcode]
      dsimp only
      split
      · exact ⟨rfl, fun _ _ => rfl, fun _ herr => absurd herr (show Phase.done ≠ 2 by decide)⟩
      · exact ⟨rfl, fun _ hdone => absurd hdone (show Phase.err ≠ 1 by decide), fun _ _ => rfl⟩
    · rw [e, e']
      exact ⟨hrsp, hph, fun h0 hdone => absurd (h0.symm.trans hdone) (by decide),
        fun h0 herr => absurd (h0.symm.trans herr) (by decide)⟩
  case hex =>
    intro i hph hepc h h'
    obtain ⟨rfl, rfl⟩ | ⟨-, -, hrsp⟩ := exec_agrees hph h h'
    · simp only [effectOf, finish_rsp, hepc]
    · exact hrsp
  case rds =>
    intro sel hph hc hn hgb hne hsb hso h h'
    obtain ⟨rfl, rfl⟩ | ⟨-, -, hrsp⟩ := exec_agrees hph h h'
    · simp only [effectOf, finish_rsp, viewOf, statusView, flagsView, gcntrView, hph, hc, hn, hgb, hne, hsb, hso]
    · exact hrsp

/-- Settles O42: each word of the list leaves the registers, so the whole list does. -/
theorem registersAreFrozenAfterEncUntilClr : Obligations.RegistersAreFrozenAfterEncUntilClr := by
  intro ws s hph hws
  have hcollect : s.regs.ph ≠ 0 := by
    rcases hph with h | h <;> rw [h] <;> decide
  obtain ⟨t, hex, hregs, hhost⟩ := exchange_completes ws s
  exact ⟨_, t, hex, responsesTo_length ws s.regs, hregs.trans (regsAfter_of_not_collect hcollect hws), hhost⟩

/-- Settles O43: the responses and the registers after an exchange are functions of the registers before it. -/
theorem responsesDependOnTheRegistersOnly : Obligations.ResponsesDependOnTheRegistersOnly := by
  intro ws s s' hregs
  obtain ⟨t, hex, ht, -⟩ := exchange_completes ws s
  obtain ⟨t', hex', ht', -⟩ := exchange_completes ws s'
  rw [← hregs] at hex' ht'
  exact ⟨_, t, t', hex, hex', ht.trans ht'.symm⟩

/-- Settles O1 by evaluating the reset state, register by register. -/
theorem resetLeavesEveryRegisterZero : Obligations.ResetLeavesEveryRegisterZero := by
  unfold Obligations.ResetLeavesEveryRegisterZero
  decide

/-- Settles O35, invariant by invariant. -/
theorem invariantsHoldAtReset : Obligations.InvariantsHoldAtReset :=
  ⟨reset_inv, reset_latched, reset_padded, reset_serialFresh⟩

end Sys2Proof

/-! The clock edges of R83 seen as command words: which words an edge answers, and which are accepted and still
unanswered. -/

namespace Sys2Proof.Machine

/-! ### Lists of answered words -/

theorem regsAfter_append (ws vs : List CmdWord) (r : Regs) :
    regsAfter (ws ++ vs) r = regsAfter vs (regsAfter ws r) :=
  List.foldl_append

theorem responsesTo_append (ws vs : List CmdWord) (r : Regs) :
    responsesTo (ws ++ vs) r = responsesTo ws r ++ responsesTo vs (regsAfter ws r) := by
  induction ws generalizing r with
  | nil => rfl
  | cons w ws ih => exact congrArg ((transition w r).2 :: ·) (ih _)

/-! ### Words in flight (R226) -/

/-- The word accepted and not yet answered, if there is one. -/
def Ports.inFlight (p : Ports) : List CmdWord := (p.job.map Job.word).toList

/-- The word accepted at an edge, if there is one. -/
def Ports.acceptedAt (p : Ports) (pin : PinIn) : List CmdWord := if p.accepts pin then [pin.cmd] else []

/-- The job in hand during an edge is the one in flight or the one accepted now, never both (R226). -/
theorem jobAt_word (p : Ports) (pin : PinIn) :
    ((p.jobAt pin).map Job.word).toList = p.inFlight ++ p.acceptedAt pin := by
  unfold Ports.jobAt Ports.acceptedAt Ports.inFlight
  cases ha : p.accepts pin with
  | false => simp
  | true =>
    have hjob : p.job = none := by
      simp only [Ports.accepts, Ports.cmdReady, Bool.and_eq_true, Option.isNone_iff_eq_none] at ha
      exact ha.2
    simp [hjob]

/-- What the port level does without reset when it goes from `p` to `q`, accepts the words `accepted` and presents the
responses `responses`: the words waiting and accepted are those answered, in order, and then the one still waiting; the
responses and the registers are those of the answered words. -/
def Ports.AnswersInOrder (p : Ports) (accepted : List CmdWord) (responses : List RspWord) (q : Ports) : Prop :=
  ∃ answered, p.inFlight ++ accepted = answered ++ q.inFlight ∧
    responses = responsesTo answered p.regs ∧ q.regs = regsAfter answered p.regs

theorem answersInOrder_refl (p : Ports) : p.AnswersInOrder [] [] p :=
  ⟨[], by simp, rfl, rfl⟩

/-- What answers in order on two stretches answers in order on both together. -/
theorem answersInOrder_trans {p m q : Ports} {as bs : List CmdWord} {rs ss : List RspWord}
    (h : p.AnswersInOrder as rs m) (h' : m.AnswersInOrder bs ss q) : p.AnswersInOrder (as ++ bs) (rs ++ ss) q := by
  obtain ⟨ws, hws, hrs, hregs⟩ := h
  obtain ⟨vs, hvs, hss, hregs'⟩ := h'
  refine ⟨ws ++ vs, ?_, ?_, ?_⟩
  · rw [← List.append_assoc, hws, List.append_assoc, hvs, List.append_assoc]
  · rw [responsesTo_append, hrs, hss, hregs]
  · rw [regsAfter_append, hregs', hregs]

/-- An edge without reset answers the word in hand, goes on holding it, or has none. -/
theorem edge_answersInOrder {p q : Ports} {pin : PinIn} (hrst : pin.rst = false) (h : p.edge pin = .next q) :
    p.AnswersInOrder (p.acceptedAt pin) q.rsp.toList q := by
  unfold Ports.AnswersInOrder
  rw [← jobAt_word]
  obtain ⟨hreset, -⟩ | ⟨-, -, ⟨j, hj, -, rfl⟩ | ⟨j, hj, -, rfl⟩ | ⟨hj, rfl⟩⟩ := edge_cases h
  · simp [hrst] at hreset
  · exact ⟨[j.word], by rw [hj]; rfl, rfl, rfl⟩
  · exact ⟨[], by rw [hj]; rfl, rfl, rfl⟩
  · have hnone : p.inFlight = [] := by
      have hwords := jobAt_word p pin
      rw [hj] at hwords
      exact (List.append_eq_nil_iff.mp hwords.symm).1
    exact ⟨[], by rw [hj]; exact hnone.symm, rfl, rfl⟩

/-! ### Runs of edges -/

/-- A run that does not stop passes its first edge. -/
theorem edges_cons_cases {p q : Ports} {pin : PinIn} {pins : List PinIn} (h : p.edges (pin :: pins) = .next q) :
    ∃ m, p.edge pin = .next m ∧ m.edges pins = .next q := by
  rw [Ports.edges] at h
  split at h
  · exact ⟨_, ‹_›, h⟩
  · cases h
  · cases h

theorem acceptedAlong_cons {p m : Ports} {pin : PinIn} (pins : List PinIn) (h : p.edge pin = .next m) :
    p.acceptedAlong (pin :: pins) = p.acceptedAt pin ++ m.acceptedAlong pins := by
  rw [Ports.acceptedAlong, h]
  rfl

theorem responsesAlong_cons {p m : Ports} {pin : PinIn} (pins : List PinIn) (h : p.edge pin = .next m) :
    p.responsesAlong (pin :: pins) = m.rsp.toList ++ m.responsesAlong pins := by
  rw [Ports.responsesAlong, h]

/-- A run without reset answers in order, also where it starts with a word in flight. -/
theorem edges_answersInOrder {pins : List PinIn} {p q : Ports} (hrst : ∀ pin ∈ pins, pin.rst = false)
    (h : p.edges pins = .next q) : p.AnswersInOrder (p.acceptedAlong pins) (p.responsesAlong pins) q := by
  induction pins generalizing p with
  | nil =>
    cases h
    exact answersInOrder_refl _
  | cons pin pins ih =>
    obtain ⟨hpin, hpins⟩ := List.forall_mem_cons.mp hrst
    obtain ⟨m, hedge, hrest⟩ := edges_cons_cases h
    rw [acceptedAlong_cons pins hedge, responsesAlong_cons pins hedge]
    exact answersInOrder_trans (edge_answersInOrder hpin hedge) (ih hpins hrest)

end Sys2Proof.Machine

namespace Sys2Proof

open Machine

/-- Settles O57: with no word in flight at the start, the words answered are the head of the words accepted, and the
exchange of the answered words gives the same responses and registers. -/
theorem portResponsesFollowAcceptanceOrder : Obligations.PortResponsesFollowAcceptanceOrder := by
  intro pins p q hrst hjob h
  obtain ⟨answered, hwords, hresponses, hregs⟩ := edges_answersInOrder hrst h
  have hstart : p.inFlight = [] := by rw [Ports.inFlight, hjob]; rfl
  rw [hstart, List.nil_append] at hwords
  obtain ⟨u, hex, hu, -⟩ := exchange_completes answered { regs := p.regs, host := [], rsp := none }
  exact ⟨answered, u, hwords, hresponses ▸ hex, hu.trans hregs.symm⟩

end Sys2Proof

/-! The command words of R70 to R79: which words decode to which command, which are illegal, and how many there are of
each class. -/

namespace Sys2Proof.Machine

/-! ### Legal words (R72, R73, R75) -/

theorem decodePlain_eq_legal_iff {d : BitVec 8} {j i : Instr} : decodePlain d j = .legal i ↔ d = 0 ∧ i = j := by
  unfold decodePlain
  split
  · next hd => rw [and_iff_right hd, Decoded.legal.injEq, eq_comm]
  · next hd => exact iff_of_false nofun fun h => hd h.1

/-- R73: the zero bits and the index make the whole operand byte. -/
theorem decodeHex_eq_legal {d : BitVec 8} {i : Instr} (h : decodeHex d = .legal i) :
    ∃ idx : BitVec 5, i = .hex idx ∧ d = 0#3 ++ idx := by
  unfold decodeHex at h
  split at h
  · next hc =>
    cases h
    refine ⟨_, rfl, ?_⟩
    rw [← show d.extractLsb' 5 3 = 0#3 from hc.1, BitVec.extractLsb'_append_extractLsb'_eq_extractLsb' (by rfl)]
    simp
  · cases h

theorem decodeRds_eq_legal {d : BitVec 8} {i : Instr} (h : decodeRds d = .legal i) :
    ∃ sel : BitVec 2, i = .rds sel ∧ d = 0#6 ++ sel := by
  unfold decodeRds at h
  split at h
  · next hc =>
    cases h
    refine ⟨_, rfl, ?_⟩
    rw [← show d.extractLsb' 2 6 = 0#6 from hc.1, BitVec.extractLsb'_append_extractLsb'_eq_extractLsb' (by rfl)]
    simp
  · cases h

/-- The fields that decode to a command are the fields of its word. -/
theorem fields_of_decodeFields {op : BitVec 4} {d : BitVec 8} {i : Instr} (h : decodeFields op d = .legal i) :
    op = opcodeOf i ∧ d = dataOf i := by
  unfold decodeFields at h
  split_ifs at h with h0 h1 h2 h3 h4 h5 h6
  · obtain ⟨rfl, rfl⟩ := decodePlain_eq_legal_iff.mp h; exact ⟨h0, rfl⟩
  · obtain ⟨rfl, rfl⟩ := decodePlain_eq_legal_iff.mp h; exact ⟨h1, rfl⟩
  · cases h; exact ⟨h2, rfl⟩
  · cases h; exact ⟨h3, rfl⟩
  · obtain ⟨rfl, rfl⟩ := decodePlain_eq_legal_iff.mp h; exact ⟨h4, rfl⟩
  · obtain ⟨idx, rfl, rfl⟩ := decodeHex_eq_legal h; exact ⟨h5, rfl⟩
  · obtain ⟨sel, rfl, rfl⟩ := decodeRds_eq_legal h; exact ⟨h6, rfl⟩

/-- Encoding undoes decoding: no bit of a legal word is dropped. -/
theorem encode_of_decode {w : CmdWord} {i : Instr} (h : decode w = .legal i) : encode i = w := by
  obtain ⟨hop, hdata⟩ := fields_of_decodeFields h
  apply eq_of_fields
  · rw [encode, opField_append, hop]
  · rw [encode, dataField_append, hdata]

/-- R75: the words of a command are the word of its encoding, if its operand is in range. -/
theorem decode_eq_legal_iff {w : CmdWord} {i : Instr} : decode w = .legal i ↔ w = encode i ∧ WellFormed i where
  mp h := ⟨(encode_of_decode h).symm, wellFormed_of_decode h⟩
  mpr := by
    rintro ⟨rfl, hw⟩
    exact decode_encode hw

/-- R75: the word of `HEX` bit by bit. -/
theorem encode_hex (i : BitVec 5) : encode (.hex i) = 0x5#4 ++ 0b000#3 ++ i := by
  rw [BitVec.append_assoc]
  rfl

/-- R75: the word of `RDS` bit by bit. -/
theorem encode_rds (sel : BitVec 2) : encode (.rds sel) = 0x6#4 ++ 0b000000#6 ++ sel := by
  rw [BitVec.append_assoc]
  rfl

/-! ### Illegal words (R79) -/

/-- The class of an illegal word; a legal word has none. -/
def illegalClass : Decoded → Option IllegalWord
  | .legal _ => none
  | .illegal why => some why

theorem exists_illegal_iff {x : Decoded} : (∃ why, x = .illegal why) ↔ illegalClass x ≠ none := by
  cases x <;> simp [illegalClass]

/-- R73: the operand bytes with which opcode `op` is legal are those below this bound. -/
def legalBelow (op : Nat) : Nat :=
  if op = 0 ∨ op = 1 ∨ op = 4 then 1 else if op = 2 ∨ op = 3 then 256
  else if op = 5 then 24 else if op = 6 then 3 else 0

/-- R79: the class of the illegal words of opcode `op`, where it has any. -/
def illegalClassOf (op : Nat) : IllegalWord :=
  if op ≤ 4 then .nonzeroData else if op = 5 then .hexIndexOutOfRange
  else if op = 6 then .selectorOutOfRange else .reservedOpcode

theorem illegalClass_decodePlain (d : BitVec 8) (i : Instr) :
    illegalClass (decodePlain d i) = if d.toNat < 1 then none else some .nonzeroData := by
  have hd : d = 0x00 ↔ d.toNat < 1 := by rw [Nat.lt_one_iff, ← BitVec.toNat_inj]; rfl
  rw [decodePlain, apply_ite illegalClass]
  exact if_congr hd rfl rfl

theorem illegalClass_decodeHex (d : BitVec 8) :
    illegalClass (decodeHex d) = if d.toNat < 24 then none else some .hexIndexOutOfRange := by
  have hd : d.extractLsb' 5 3 = 0 ∧ d.extractLsb' 0 5 ≤ 23 ↔ d.toNat < 24 := by revert d; decide
  rw [decodeHex, apply_ite illegalClass]
  exact if_congr hd rfl rfl

theorem illegalClass_decodeRds (d : BitVec 8) :
    illegalClass (decodeRds d) = if d.toNat < 3 then none else some .selectorOutOfRange := by
  have hd : d.extractLsb' 2 6 = 0 ∧ d.extractLsb' 0 2 ≤ 2 ↔ d.toNat < 3 := by revert d; decide
  rw [decodeRds, apply_ite illegalClass]
  exact if_congr hd rfl rfl

theorem decodeFields_reserved {op : BitVec 4} (hop : 7 ≤ op.toNat) (d : BitVec 8) :
    decodeFields op d = .illegal .reservedOpcode := by
  have hne (k : BitVec 4) (hk : k.toNat < 7) : op ≠ k := by rintro rfl; omega
  simp [decodeFields, hne]

/-- R79: in each opcode's row the lowest operand bytes are legal and the others illegal of one class. -/
theorem illegalClass_decodeFields (op : BitVec 4) (d : BitVec 8) : illegalClass (decodeFields op d) =
    if d.toNat < legalBelow op.toNat then none else some (illegalClassOf op.toNat) := by
  have hop : op = 0 ∨ op = 1 ∨ op = 2 ∨ op = 3 ∨ op = 4 ∨ op = 5 ∨ op = 6 ∨ 7 ≤ op.toNat := by revert op; decide
  obtain rfl | rfl | rfl | rfl | rfl | rfl | rfl | hop := hop
  · exact illegalClass_decodePlain d .nop
  · exact illegalClass_decodePlain d .clr
  · exact (if_pos d.isLt).symm
  · exact (if_pos d.isLt).symm
  · exact illegalClass_decodePlain d .enc
  · exact illegalClass_decodeHex d
  · exact illegalClass_decodeRds d
  · have hbelow : legalBelow op.toNat = 0 := by
      rw [legalBelow, if_neg (by omega), if_neg (by omega), if_neg (by omega), if_neg (by omega)]
    have hclass : illegalClassOf op.toNat = .reservedOpcode := by
      rw [illegalClassOf, if_neg (by omega), if_neg (by omega), if_neg (by omega)]
    rw [decodeFields_reserved hop, hbelow, hclass]
    rfl

theorem decode_illegal_iff {w : CmdWord} :
    (∃ why, decode w = .illegal why) ↔ legalBelow (w.toNat / 256) ≤ w.toNat % 256 := by
  rw [exists_illegal_iff, decode, illegalClass_decodeFields, opField_toNat, dataField_toNat]
  simp

/-! ### Counts (R75, R79) -/

/-- A list of `a * b` numbers counted row by row. -/
theorem countP_range_mul (p : Nat → Bool) (a b : Nat) : (List.range (a * b)).countP p =
    ((List.range a).map fun i => (List.range b).countP fun j => p (i * b + j)).sum := by
  induction a with
  | zero => simp
  | succ a ih =>
    rw [Nat.succ_mul, List.range_add, List.countP_append, ih, List.countP_map, List.range_succ, List.map_append,
      List.sum_append]
    simp [Function.comp_def]

theorem countP_const {α : Type} (x : Bool) (l : List α) : l.countP (fun _ => x) = l.length * x.toNat := by
  cases x <;> simp

/-- A row of `n` numbers of which the first `k` have one answer and the others another. -/
theorem countP_range_ite (x y : Bool) {k n : Nat} (h : k ≤ n) :
    ((List.range n).countP fun j => if j < k then x else y) = k * x.toNat + (n - k) * y.toNat := by
  obtain ⟨m, rfl⟩ := Nat.exists_eq_add_of_le h
  have hlow : ((List.range k).countP fun j => if j < k then x else y) = (List.range k).countP fun _ => x :=
    List.countP_congr fun j hj => by simp [List.mem_range.mp hj]
  rw [List.range_add, List.countP_append, List.countP_map, hlow, countP_const]
  simp [Function.comp_def, countP_const]

theorem legalBelow_le (op : Nat) : legalBelow op ≤ 256 := by
  unfold legalBelow
  split_ifs <;> decide

/-- The words of each class, counted opcode by opcode: `q` says which classes count, and whether legal words do. -/
theorem countP_words (q : Option IllegalWord → Bool) :
    ((List.range 4096).countP fun n => q (illegalClass (decode (BitVec.ofNat 12 n)))) =
      ((List.range 16).map fun op =>
        legalBelow op * (q none).toNat + (256 - legalBelow op) * (q (some (illegalClassOf op))).toNat).sum := by
  refine (countP_range_mul _ 16 256).trans (congrArg List.sum (List.map_congr_left fun op hop => ?_))
  rw [← countP_range_ite _ _ (legalBelow_le op)]
  refine List.countP_congr fun d hd => ?_
  have hw : (BitVec.ofNat 12 (op * 256 + d)).toNat = op * 256 + d := by
    have := List.mem_range.mp hop
    have := List.mem_range.mp hd
    rw [BitVec.toNat_ofNat]
    omega
  have hdiv : (op * 256 + d) / 256 = op := by have := List.mem_range.mp hd; omega
  have hmod : (op * 256 + d) % 256 = d := by have := List.mem_range.mp hd; omega
  rw [decode, illegalClass_decodeFields, opField_toNat, dataField_toNat, hw, hdiv, hmod, apply_ite q]

end Sys2Proof.Machine

namespace Sys2Proof

open Machine

/-- Settles O24: the fields of the word are the command's own, and the range checks of `HEX` and `RDS` pass. -/
theorem decodeOfEncodeIsTheCommand : Obligations.DecodeOfEncodeIsTheCommand :=
  fun _ => decode_encode

/-- Settles O25: the fields of a legal word are those of the command, and the decoder checks the ranges. -/
theorem encodeOfDecodeIsTheWord : Obligations.EncodeOfDecodeIsTheWord :=
  fun _ _ h => ⟨wellFormed_of_decode h, encode_of_decode h⟩

/-- Settles O22: a command's words are its encoding, which is the row of the map. -/
theorem decodeFollowsTheOpcodeMap : Obligations.DecodeFollowsTheOpcodeMap := by
  intro w
  simp only [decode_eq_legal_iff]
  refine ⟨and_iff_left rfl, and_iff_left rfl, fun c => and_iff_left rfl, fun c => and_iff_left rfl, and_iff_left rfl,
    fun i => ?_, fun sel => ?_⟩
  · rw [encode_hex]; exact and_congr_right' decide_eq_true_iff
  · rw [encode_rds]; exact and_congr_right' decide_eq_true_iff

/-- Settles O27: the four classes on the fields of the word, and an illegal word answers `ILL`. -/
theorem illegalWordsAnswerIll : Obligations.IllegalWordsAnswerIll := by
  intro w
  constructor
  · rw [decode_illegal_iff, legalBelow]
    split_ifs <;> omega
  · rintro ⟨why, h⟩ s rest
    rw [step_command rfl, runWord_illegal h]
    rfl

/-- Settles O21 by evaluating the decoder on each of the twelve words. -/
theorem sampleWordsDecode : Obligations.SampleWordsDecode := by
  unfold Obligations.SampleWordsDecode
  decide

/-- Settles O23: each count is a sum over the sixteen opcodes. -/
theorem legalAndIllegalWordCounts : Obligations.LegalAndIllegalWordCounts := by
  have hillegal (x : Decoded) (why : IllegalWord) : (x == .illegal why) = (illegalClass x == some why) := by
    rw [Bool.eq_iff_iff, beq_iff_eq, beq_iff_eq]
    cases x <;> simp [illegalClass]
  refine ⟨?_, ?_, ?_, ?_, ?_⟩
  · simp only [hillegal]; rw [countP_words (· == some .reservedOpcode)]; rfl
  · simp only [hillegal]; rw [countP_words (· == some .nonzeroData)]; rfl
  · simp only [hillegal]; rw [countP_words (· == some .hexIndexOutOfRange)]; rfl
  · simp only [hillegal]; rw [countP_words (· == some .selectorOutOfRange)]; rfl
  · refine Eq.trans (List.countP_congr fun n _ => ?_) ((countP_words (· == none)).trans rfl)
    cases decode (BitVec.ofNat 12 n) <;> simp [illegalClass]

end Sys2Proof

/-! What a word, a step and a clock edge answer: the order of checks of R81, the table of R80, the responses of R77, and
the edges of R83 as steps of the machine. -/

namespace Sys2Proof.Machine

/-! ### Responses (R76, R77) -/

/-- R77: an executed command answers `OK`, but an `ENC` that finds a cause answers `ERR` with it. -/
theorem effectOf_rsp_cases (i : Instr) (s : State) :
    (∃ d : BitVec 8, (effectOf i s).rsp = some (Code.ok ++ d)) ∨
    (i = .enc ∧ s.regs.encCause ≠ Cause.none ∧ effectOf i s = raiseEncodeError s.regs.encCause s) := by
  cases i with
  | enc =>
    obtain ⟨-, h⟩ | ⟨hc, h⟩ := encodeNow_cases s
    · exact .inl ⟨0x00, by rw [effectOf, h, finish_rsp]⟩
    · exact .inr ⟨rfl, hc, h⟩
  | nop | clr | gch | sch | hex | rds => exact .inl ⟨_, rfl⟩

/-- R76: the code of a response word. -/
theorem code_append (code : BitVec 2) (d : BitVec 8) : (code ++ d : RspWord).extractLsb' 8 2 = code :=
  BitVec.extractLsb'_append_eq_left

/-- R76: the data of a response word. -/
theorem rdata_append (code : BitVec 2) (d : BitVec 8) : (code ++ d : RspWord).extractLsb' 0 8 = d :=
  BitVec.extractLsb'_append_eq_right

/-- R77: only an executed `ENC` that raises an error answers with code `ERR`. -/
theorem raise_of_code_err {i : Instr} {s t : State} {r : RspWord} (h : exec i s = .next t) (hr : t.rsp = some r)
    (hcode : r.extractLsb' 8 2 = Code.err) :
    i = .enc ∧ s.regs.ph = Phase.collect ∧ s.regs.encCause ≠ Cause.none ∧
      t = raiseEncodeError s.regs.encCause s := by
  obtain ⟨-, ha, rfl⟩ | ⟨-, -, rfl⟩ | ⟨-, rfl⟩ := exec_cases h
  · obtain ⟨d, hd⟩ | ⟨rfl, hc, heffect⟩ := effectOf_rsp_cases i s
    · obtain rfl : Code.ok ++ d = r := Option.some.inj (hd.symm.trans hr)
      rw [code_append] at hcode
      cases hcode
    · exact ⟨rfl, eq_of_beq ha, hc, heffect⟩
  · cases hr; cases hcode
  · cases hr; cases hcode

/-! ### Phase legality (R80) -/

/-- R80: outside its phases a command answers `SEQ`. -/
theorem exec_refuses {i : Instr} {s : State} (hw : WellFormed i) (ha : allowed i s.regs.ph = false) :
    exec i s = .next { s with rsp := some 0x200 } := by
  rw [exec_eq_guarded, guarded_refuses _ hw ha]
  rfl

/-- R80 for a command whose row marks the phases in which `P` holds. -/
theorem phaseLegality {i : Instr} {s : State} {P : Prop} (hw : WellFormed i) (hP : P ↔ allowed i s.regs.ph = true) :
    (P → ∃ t r, exec i s = .next t ∧ t.rsp = some r ∧
      (r.extractLsb' 8 2 = 0 ∨ (r.extractLsb' 8 2 = 1 ∧ i = .enc))) ∧
    (¬P → exec i s = .next { s with rsp := some 0x200 }) := by
  constructor
  · intro h
    rw [exec_eq_guarded, guarded_executes _ hw (hP.mp h)]
    obtain ⟨d, hd⟩ | ⟨rfl, -, heffect⟩ := effectOf_rsp_cases i s
    · exact ⟨_, _, rfl, hd, .inl (code_append _ _)⟩
    · exact ⟨_, _, rfl, by rw [heffect, raise_rsp], .inr ⟨code_append _ _, rfl⟩⟩
  · exact fun h => exec_refuses hw (Bool.eq_false_iff.mpr (mt hP.mpr h))

/-! ### Steps of a protocol-keeping host (R228) -/

/-- A step takes the host's next move, and stops only on a breach. -/
theorem step_completes {s : State} (h : s.HostKeepsProtocol) : ∃ t, step s = .next t ∧ t.host = s.host.tail := by
  cases hh : s.host with
  | nil => exact ⟨_, step_no_move hh, hh⟩
  | cons m rest =>
    have hm : m.keepsProtocol = true := h m (by simp [hh])
    cases m with
    | idle => exact ⟨_, step_idle hh, rfl⟩
    | command w => exact ⟨_, (step_command hh).trans (runWord_eq w _), rfl⟩
    | reset => exact ⟨_, step_reset hh, rfl⟩
    | commandThenReset w => exact ⟨_, step_commandThenReset hh, rfl⟩
    | changeWhileWaiting | missResponse => cases hm

/-! ### Clock edges as steps (R83, R226) -/

/-- A reset edge is a reset move, with or without a command in flight. -/
theorem moveAt_of_rst {p : Ports} {pin : PinIn} (h : pin.rst = true) :
    p.moveAt pin = .reset ∨ ∃ w, p.moveAt pin = .commandThenReset w := by
  rw [Ports.moveAt, if_pos h]
  cases p.job with
  | none => exact .inl rfl
  | some j => exact .inr ⟨j.word, rfl⟩

theorem moveAt_of_answered {p : Ports} {pin : PinIn} {j : Job} (hrst : pin.rst = false) (hj : p.jobAt pin = some j)
    (hleft : j.left ≤ 1) : p.moveAt pin = .command j.word := by
  simp [Ports.moveAt, hrst, hj, hleft]

theorem moveAt_of_in_flight {p : Ports} {pin : PinIn} {j : Job} (hrst : pin.rst = false) (hj : p.jobAt pin = some j)
    (hleft : ¬j.left ≤ 1) : p.moveAt pin = .idle := by
  simp [Ports.moveAt, hrst, hj, hleft]

theorem moveAt_of_no_job {p : Ports} {pin : PinIn} (hrst : pin.rst = false) (hj : p.jobAt pin = none) :
    p.moveAt pin = .idle := by
  simp [Ports.moveAt, hrst, hj]

/-- One edge is one step on its move, whatever the host does afterwards. -/
theorem step_of_edge {p q : Ports} {pin : PinIn} (h : p.edge pin = .next q) (rest : List HostMove) :
    step { regs := p.regs, host := p.moveAt pin :: rest, rsp := p.rsp } =
      .next { regs := q.regs, host := rest, rsp := q.rsp } := by
  obtain ⟨hrst, rfl⟩ | ⟨hrst, -, ⟨j, hj, hleft, rfl⟩ | ⟨j, hj, hleft, rfl⟩ | ⟨hj, rfl⟩⟩ := edge_cases h
  · obtain hm | ⟨w, hm⟩ := moveAt_of_rst (p := p) hrst <;> rw [hm] <;> rfl
  · rw [moveAt_of_answered hrst hj hleft, step_command rfl, runWord_eq]
  · rw [moveAt_of_in_flight hrst hj hleft]; rfl
  · rw [moveAt_of_no_job hrst hj]; rfl

theorem movesOf_cons {p m : Ports} {pin : PinIn} (pins : List PinIn) (h : p.edge pin = .next m) :
    p.movesOf (pin :: pins) = p.moveAt pin :: m.movesOf pins := by
  rw [Ports.movesOf, h]

theorem runFrom_succ {n : Nat} {s t : State} (h : step s = .next t) : runFrom (n + 1) s = runFrom n t := by
  rw [runFrom, h]

end Sys2Proof.Machine

namespace Sys2Proof

open Machine

/-- Settles O28: the phases of each row are those `allowed` checks. -/
theorem phaseLegalityTable : Obligations.PhaseLegalityTable := by
  intro i s hw
  cases i with
  | nop | clr | rds => exact phaseLegality hw (iff_of_true trivial rfl)
  | gch | sch | enc | hex => exact phaseLegality hw beq_iff_eq.symm

/-- Settles O30: a word's next state is a function of the word and the registers. -/
theorem everyWordGetsOneResponse : Obligations.EveryWordGetsOneResponse :=
  fun s w => ⟨_, _, runWord_eq w s, rfl, rfl⟩

/-- Settles O32: only `raiseEncodeError` answers `ERR`, with the cause it writes, and 0x400 is the one word of `ENC`. -/
theorem errResponsesComeFromEncOnly : Obligations.ErrResponsesComeFromEncOnly := by
  intro s t w r h hr hcode
  rw [step_offer] at h
  cases hd : decode w with
  | illegal why =>
    rw [runWord_illegal hd] at h
    cases h; cases hr; cases hcode
  | legal i =>
    rw [runWord_legal hd] at h
    obtain ⟨rfl, hph, hcause, rfl⟩ := raise_of_code_err h hr hcode
    cases hr
    exact ⟨(encode_of_decode hd).symm, hph, rfl, hcause, rdata_append _ _, rfl⟩

/-- Settles O48: each step completes and leaves a tail of the host's moves. -/
theorem protocolKeepingHostNeverStopsTheMachine : Obligations.ProtocolKeepingHostNeverStopsTheMachine := by
  intro n
  induction n with
  | zero => exact fun s hs => ⟨s, rfl, hs⟩
  | succ n ih =>
    intro s hs
    obtain ⟨t, hstep, hhost⟩ := step_completes hs
    rw [runFrom_succ hstep]
    exact ih t fun m hm => hs m (List.mem_of_mem_tail (hhost ▸ hm))

/-- Settles O29: `step` runs the decoder's command, and `exec` checks the phase before the command's rule. -/
theorem stepRunsTheDecodedCommand : Obligations.StepRunsTheDecodedCommand := by
  refine ⟨fun s w rest i h => ?_, fun s w rest why h => ?_, fun s w rest i h ha => ?_, fun s nbits w i h => ?_⟩
  · rw [step_command rfl, runWord_legal h]
  · rw [step_command rfl, runWord_illegal h]
    rfl
  · rw [step_command rfl, runWord_legal h]
    exact exec_refuses (s := { s with host := rest }) (wellFormed_of_decode h) ha
  · have hd : decode (portWord nbits w) = .legal i := by
      unfold decodeTableWord at h
      split at h
      · cases h; assumption
      · cases h
    rw [State.withFetchWord, step_offer, runWord_legal hd]

/-- Settles O55: what an edge does, case by case, is what the step on its move does. -/
theorem portEdgeIsOneCommandLevelStep : Obligations.PortEdgeIsOneCommandLevelStep :=
  fun _ _ _ h => step_of_edge h []

/-- Settles O56: the run takes one step for each edge. -/
theorem portRunRefinesTheCommandMachine : Obligations.PortRunRefinesTheCommandMachine := by
  intro pins
  induction pins with
  | nil =>
    intro p q h
    cases h
    exact ⟨rfl, rfl⟩
  | cons pin pins ih =>
    intro p q h
    obtain ⟨m, hedge, hrest⟩ := edges_cons_cases h
    obtain ⟨hlen, hrun⟩ := ih m q hrest
    rw [movesOf_cons pins hedge, List.length_cons, List.length_cons, hlen, runFrom_succ (step_of_edge hedge _)]
    exact ⟨rfl, hrun⟩

end Sys2Proof

/-! The reads of `HEXALL` and the pseudo-command `ENCODE` of R85 against the reference function of R13: what the
registers hold after `CLR` and the two strings, what `ENC` makes of them, and what the 24 reads answer. -/

namespace Sys2Proof.Reference

theorem decimal_eq_foldl_digits (cs : List CharCode) :
    decimal cs = (cs.map digit).foldl (fun t d => 10 * t + d) 0 := by
  rw [decimal, List.foldl_map]

/-- R13 step 6 as a sum: no field reaches into the next. -/
theorem value_eq_sum {g s : List CharCode} (hg : gtinOk g = true) (hs : serialOk s = true) : value g s =
    0x303400000000000000000000 + companyPrefix g * 2 ^ 58 + itemReference g * 2 ^ 38 + decimal s := by
  have hcp : companyPrefix g < 2 ^ 24 := (companyPrefix_lt hg).trans (by decide)
  have hir : itemReference g < 2 ^ 20 := (itemReference_lt hg).trans (by decide)
  have hsn : decimal s < 2 ^ 38 := (serialOk_iff.mp hs).2
  have hconst : (0x30 <<< 88) ||| (1 <<< 85) ||| (5 <<< 82) = 3085 <<< 82 := by decide
  have hcp' : companyPrefix g <<< 58 < 2 ^ 82 := by rw [Nat.shiftLeft_eq]; omega
  have hir' : itemReference g <<< 38 < 2 ^ 58 := by rw [Nat.shiftLeft_eq]; omega
  have h58 (cp : Nat) : 3085 <<< 82 + cp <<< 58 = (3085 <<< 24 + cp) <<< 58 := by
    simp only [Nat.shiftLeft_eq]; omega
  have h38 (x ir : Nat) : x <<< 58 + ir <<< 38 = (x <<< 20 + ir) <<< 38 := by
    simp only [Nat.shiftLeft_eq]; omega
  rw [value, hconst, ← Nat.shiftLeft_add_eq_or_of_lt hcp', h58, ← Nat.shiftLeft_add_eq_or_of_lt hir', h38,
    ← Nat.shiftLeft_add_eq_or_of_lt hsn]
  simp only [Nat.shiftLeft_eq]
  omega

end Sys2Proof.Reference

namespace Sys2Proof.Machine

/-! ### Words that leave the registers -/

theorem responsesTo_of_fixed {ws : List CmdWord} {r : Regs} (h : ∀ w ∈ ws, (transition w r).1 = r) :
    responsesTo ws r = ws.map fun w => (transition w r).2 := by
  induction ws with
  | nil => rfl
  | cons w ws ih =>
    obtain ⟨hw, hws⟩ := List.forall_mem_cons.mp h
    rw [responsesTo, hw, ih hws]
    rfl

theorem regsAfter_of_fixed {ws : List CmdWord} {r : Regs} (h : ∀ w ∈ ws, (transition w r).1 = r) :
    regsAfter ws r = r := by
  induction ws with
  | nil => rfl
  | cons w ws ih =>
    obtain ⟨hw, hws⟩ := List.forall_mem_cons.mp h
    rw [regsAfter, List.foldl_cons, hw]
    exact ih hws

/-! ### Words of well-formed commands (R80, R81) -/

theorem transition_of_allowed {i : Instr} {r : Regs} (hw : WellFormed i) (ha : allowed i r.ph = true) :
    transition (encode i) r = ((effectOf i { regs := r, host := [], rsp := none }).regs,
      (effectOf i { regs := r, host := [], rsp := none }).rsp.getD 0) := by
  rw [transition, decode_encode hw]
  exact if_pos ha

theorem transition_of_refused {i : Instr} {r : Regs} (hw : WellFormed i) (ha : allowed i r.ph = false) :
    transition (encode i) r = (r, 0x200) := by
  rw [transition, decode_encode hw]
  exact if_neg (Bool.eq_false_iff.mp ha)

/-! ### The 24 reads (R85, R155) -/

/-- R153 as a transition. -/
theorem transition_hex {i : BitVec 5} (hi : i ≤ 23) (r : Regs) : transition (encode (.hex i)) r =
    (r, if r.ph = Phase.done then Code.ok ++ hexchar (nib r.epc i.toNat) else 0x200) := by
  have hw : WellFormed (.hex i) := decide_eq_true hi
  split
  · next hph => rw [transition_of_allowed hw (beq_iff_eq.mpr hph)]; rfl
  · next hph => exact transition_of_refused hw (beq_eq_false_iff_ne.mpr hph)

theorem transition_hexAll {i : Nat} (hi : i < 24) (r : Regs) : transition (encode (.hex (BitVec.ofNat 5 i))) r =
    (r, if r.ph = Phase.done then Code.ok ++ hexchar (nib r.epc i) else 0x200) := by
  have hnat : (BitVec.ofNat 5 i).toNat = i := by rw [BitVec.toNat_ofNat]; omega
  have hle : BitVec.ofNat 5 i ≤ 23 := by rw [BitVec.le_def, hnat]; exact Nat.le_of_lt_succ hi
  rw [transition_hex hle, hnat]

theorem hexAll_fixes (r : Regs) : ∀ w ∈ wordsOf hexAll, (transition w r).1 = r := by
  intro w hw
  simp only [wordsOf, hexAll, List.map_map, List.mem_map, List.mem_range] at hw
  obtain ⟨i, hi, rfl⟩ := hw
  exact congrArg Prod.fst (transition_hexAll hi r)

theorem responsesTo_hexAll (r : Regs) : responsesTo (wordsOf hexAll) r =
    (List.range 24).map fun i => if r.ph = Phase.done then Code.ok ++ hexchar (nib r.epc i) else 0x200 := by
  rw [responsesTo_of_fixed (hexAll_fixes r), wordsOf, hexAll, List.map_map, List.map_map]
  exact List.map_congr_left fun i hi => congrArg Prod.snd (transition_hexAll (List.mem_range.mp hi) r)

theorem responsesTo_hexAll_of_done {r : Regs} (hph : r.ph = Phase.done) :
    responsesTo (wordsOf hexAll) r = (hexstr r.epc).map fun ch => Code.ok ++ ch := by
  simp only [responsesTo_hexAll, hph, if_true, hexstr, List.map_map]
  rfl

theorem responsesTo_hexAll_of_not_done {r : Regs} (hph : r.ph ≠ Phase.done) :
    responsesTo (wordsOf hexAll) r = List.replicate 24 0x200 := by
  simp only [responsesTo_hexAll, hph, if_false]
  rfl

/-- R155 against R13 step 7. -/
theorem hexstr_eq_reference (v : Epc96) : hexstr v = Reference.hexString v.toNat :=
  List.map_congr_left fun i hi => hexchar_nib_eq_reference v i (Nat.le_of_lt_succ (List.mem_range.mp hi))

/-! ### `ENC` on the two strings (R133, R138) -/

/-- R133: an encode without a cause. -/
theorem transition_enc_latches {r : Regs} (hph : r.ph = Phase.collect) (hc : r.encCause = Cause.none) :
    transition (encode .enc) r = ({ r with epc := r.code, ph := Phase.done }, 0x000) := by
  have ha : allowed .enc r.ph = true := beq_iff_eq.mpr hph
  rw [transition_of_allowed rfl ha, effectOf, encodeNow, if_pos hc]
  rfl

/-- R196: an encode with a cause. -/
theorem transition_enc_raises {r : Regs} (hph : r.ph = Phase.collect) (hc : r.encCause ≠ Cause.none) :
    transition (encode .enc) r =
      ({ r with ph := Phase.err, cause := r.encCause }, Code.err ++ r.encCause.setWidth 8) := by
  have ha : allowed .enc r.ph = true := beq_iff_eq.mpr hph
  rw [transition_of_allowed rfl ha, effectOf, encodeNow, if_neg hc]
  rfl

/-- The registers of a fresh transaction after its two strings. -/
def regsOfStrings (g s : List CharCode) : Regs := pushSerials s (pushGtins g Regs.reset)

section strings
variable (g s : List CharCode)

theorem regsOfStrings_ph : (regsOfStrings g s).ph = Phase.collect := by
  rw [regsOfStrings, pushSerials_frame, pushGtins_frame]
  rfl

theorem regsOfStrings_g : (regsOfStrings g s).g = (pushGtins g Regs.reset).g := by
  rw [regsOfStrings, pushSerials_frame]

theorem regsOfStrings_gcnt : (regsOfStrings g s).gcnt.toNat = min g.length 15 := by
  rw [regsOfStrings, pushSerials_frame, pushGtins_gcnt]
  simp [Regs.reset]

theorem regsOfStrings_gbad : (regsOfStrings g s).gbad = g.any fun c => !Reference.isDigit c := by
  rw [regsOfStrings, pushSerials_frame, pushGtins_gbad]
  rfl

theorem regsOfStrings_sne : (regsOfStrings g s).sne = decide (1 ≤ s.length) := by
  rw [regsOfStrings, pushSerials_sne, pushGtins_frame]
  rfl

theorem regsOfStrings_sbad : (regsOfStrings g s).sbad = s.any fun c => !Reference.isDigit c := by
  rw [regsOfStrings, pushSerials_sbad, pushGtins_frame]
  rfl

variable {s} in
theorem regsOfStrings_value (hs : s.all Reference.isDigit = true) :
    (regsOfStrings g s).sacc.toNat = Reference.decimal s % 2 ^ 38 ∧
    ((regsOfStrings g s).sovf = true ↔ 2 ^ 38 ≤ Reference.decimal s) := by
  have hfilter : s.filter Reference.isDigit = s := List.filter_eq_self.mpr (List.all_eq_true.mp hs)
  have h := pushSerials_value (r := pushGtins g Regs.reset) (by rw [pushGtins_frame]; rfl)
    (by rw [pushGtins_frame]; rfl) s
  rwa [hfilter] at h

/-- R138: `ENC` finds no cause exactly when both strings are valid. -/
theorem regsOfStrings_encCause : (regsOfStrings g s).encCause = Cause.none ↔
    Reference.gtinOk g = true ∧ Reference.serialOk s = true := by
  have hany (cs : List CharCode) :
      (cs.any fun c => !Reference.isDigit c) = false ↔ cs.all Reference.isDigit = true := by simp
  have hgcnt : (regsOfStrings g s).gcnt ≠ 15 ↔ g.length ≤ 14 := by
    have h15 : (15 : BitVec 4).toNat = 15 := rfl
    rw [Ne, ← BitVec.toNat_inj, regsOfStrings_gcnt, h15]
    omega
  rw [Regs.encCause, encCause_eq_none_iff, hgcnt, regsOfStrings_gbad, regsOfStrings_sbad, regsOfStrings_sne,
    hany, hany, Reference.gtinOk, Reference.serialOk, Reference.serialDigits]
  simp only [Bool.and_eq_true, decide_eq_true_iff]
  have hsovf (hs : s.all Reference.isDigit = true) :
      (regsOfStrings g s).sovf = false ↔ Reference.decimal s ≤ 2 ^ 38 - 1 := by
    rw [← Bool.not_eq_true, (regsOfStrings_value g hs).2]
    omega
  constructor
  · rintro ⟨hlen, hg, hs, hne, hovf⟩
    exact ⟨⟨hlen, hg⟩, ⟨hne, hs⟩, (hsovf hs).mp hovf⟩
  · rintro ⟨⟨hlen, hg⟩, ⟨hne, hs⟩, hvalue⟩
    exact ⟨hlen, hg, hs, hne, (hsovf hs).mpr hvalue⟩

end strings

theorem window_toList (w : Window) : w.toList =
    [w[0], w[1], w[2], w[3], w[4], w[5], w[6], w[7], w[8], w[9], w[10], w[11], w[12], w[13]] := by
  apply List.ext_getElem (by simp)
  intro i h₁ h₂
  simp only [Vector.length_toList] at h₁
  interval_cases i <;> simp

section fields
variable {g : List CharCode} {w : Window} (h : w.toList.map BitVec.toNat = (Reference.padded g).map Reference.digit)
include h

/-- R13 steps 2 to 4: a field of the padded string, read from the digits of the window. -/
theorem decimal_field (a n : Nat) : Reference.decimal (((Reference.withoutCheckDigit g).drop a).take n) =
    ((((w.toList.map BitVec.toNat).take 13).drop a).take n).foldl (fun t d => 10 * t + d) 0 := by
  rw [Reference.withoutCheckDigit, Reference.decimal_eq_foldl_digits, List.map_take, List.map_drop, List.map_take, ← h]

theorem cpval_eq_reference : (cpval w).toNat = Reference.companyPrefix g := by
  rw [Reference.companyPrefix, decimal_field h, window_toList, cpval_toNat]
  dsimp only [List.map, List.take, List.drop, List.foldl]
  omega

theorem irval_eq_reference : (irval w).toNat = Reference.itemReference g := by
  rw [Reference.itemReference, decimal_field h, window_toList, irval_toNat]
  dsimp only [List.map, List.take, List.drop, List.foldl]
  omega

end fields

theorem regsOfStrings_code {g s : List CharCode} (hg : Reference.gtinOk g = true)
    (hs : Reference.serialOk s = true) : (regsOfStrings g s).code.toNat = Reference.value g s := by
  obtain ⟨hlen, hdigits⟩ := Reference.gtinOk_iff.mp hg
  have hwindow := pushGtins_g hlen (List.all_eq_true.mpr hdigits)
  obtain ⟨hsdigits, hsn⟩ := Reference.serialOk_iff.mp hs
  have hsacc : (regsOfStrings g s).sacc.toNat = Reference.decimal s := by
    rw [(regsOfStrings_value g (Bool.and_eq_true_iff.mp hsdigits).2).1, Nat.mod_eq_of_lt hsn]
  rw [Regs.code, pack96_toNat, regsOfStrings_g, cpval_eq_reference hwindow, irval_eq_reference hwindow, snval, hsacc,
    Reference.value_eq_sum hg hs]

/-! ### The pseudo-command `ENCODE` (R85) -/

/-- The pushes of `ENCODE`. -/
def pushesOf (g s : List CharCode) : List Instr := g.map .gch ++ s.map .sch

theorem pushesOf_fills (g s : List CharCode) : ∀ i ∈ pushesOf g s, fillsTransaction i = true := by
  intro i hi
  obtain h | h := List.mem_append.mp hi <;> obtain ⟨c, -, rfl⟩ := List.mem_map.mp h <;> rfl

theorem gtinChars_pushesOf (g s : List CharCode) : gtinChars (pushesOf g s) = g := by
  simp [gtinChars, pushesOf, List.filterMap_map]

theorem serialChars_pushesOf (g s : List CharCode) : serialChars (pushesOf g s) = s := by
  simp [serialChars, pushesOf, List.filterMap_map]

theorem expand_encode (g s : List CharCode) :
    wordsOf (Pseudo.encode g s).expand = wordsOf (.clr :: pushesOf g s) ++ (encode .enc :: wordsOf hexAll) := by
  simp [Pseudo.expand, wordsOf, pushesOf]

theorem regsAfter_clr_pushesOf (g s : List CharCode) (r : Regs) :
    regsAfter (wordsOf (.clr :: pushesOf g s)) r = regsOfStrings g s := by
  have hclr : transition (encode .clr) r = (Regs.reset, 0x000) := transition_of_allowed rfl rfl
  rw [wordsOf, List.map_cons, regsAfter, List.foldl_cons, hclr]
  exact (regsAfter_wordsOf (pushesOf_fills g s) rfl).trans (by rw [gtinChars_pushesOf, serialChars_pushesOf]; rfl)

/-- What `ENC` and the 24 reads answer after `CLR` and the two strings. -/
def answersOf (g s : List CharCode) : List RspWord :=
  responsesTo (encode .enc :: wordsOf hexAll) (regsOfStrings g s)

theorem answersOf_of_valid {g s : List CharCode} (hg : Reference.gtinOk g = true)
    (hs : Reference.serialOk s = true) : answersOf g s =
      0x000 :: (Reference.hexString (Reference.value g s)).map fun ch => Code.ok ++ ch := by
  have hc := (regsOfStrings_encCause g s).mpr ⟨hg, hs⟩
  rw [answersOf, responsesTo, transition_enc_latches (regsOfStrings_ph g s) hc]
  dsimp only
  rw [responsesTo_hexAll_of_done rfl, hexstr_eq_reference, regsOfStrings_code hg hs]

theorem answersOf_of_invalid {g s : List CharCode}
    (h : ¬(Reference.gtinOk g = true ∧ Reference.serialOk s = true)) :
    ∃ c : BitVec 8, (c = 1 ∨ c = 2 ∨ c = 3) ∧ answersOf g s = (Code.err ++ c) :: List.replicate 24 0x200 := by
  have hc : (regsOfStrings g s).encCause ≠ Cause.none := mt (regsOfStrings_encCause g s).mp h
  have hcause : ∀ k : BitVec 2, k ≠ Cause.none → k.setWidth 8 = 1#8 ∨ k.setWidth 8 = 2#8 ∨ k.setWidth 8 = 3#8 := by
    decide
  refine ⟨_, hcause _ hc, ?_⟩
  rw [answersOf, responsesTo, transition_enc_raises (regsOfStrings_ph g s) hc]
  dsimp only
  rw [responsesTo_hexAll_of_not_done (show Phase.err ≠ Phase.done by decide)]

end Sys2Proof.Machine

namespace Sys2Proof

open Machine

/-- Settles O19: each of the 24 reads answers its character and leaves the registers. -/
theorem hexAllReadsTheWholeString : Obligations.HexAllReadsTheWholeString := by
  intro s hph
  obtain ⟨t, hex, hregs, hhost⟩ := exchange_completes (wordsOf hexAll) s
  rw [responsesTo_hexAll_of_done hph] at hex
  exact ⟨t, hex, hregs.trans (regsAfter_of_fixed (hexAll_fixes _)), hhost⟩

/-- Settles O51: after `CLR` and the pushes the registers are those of the two strings, whatever they were before. -/
theorem encodePseudoCommandReturnsTheReferenceString :
    Obligations.EncodePseudoCommandReturnsTheReferenceString := by
  intro g s st
  obtain ⟨t, hex, -, -⟩ := exchange_completes (wordsOf (Pseudo.encode g s).expand) st
  have hlen : (wordsOf (Pseudo.encode g s).expand).length = g.length + s.length + 26 := by
    simp only [wordsOf, Pseudo.expand, hexAll, List.length_map, List.length_append, List.length_range, List.length_cons,
      List.length_nil, Config.hexLen]
    omega
  have hanswers : (responsesTo (wordsOf (Pseudo.encode g s).expand) st.regs).drop (1 + g.length + s.length) =
      answersOf g s := by
    rw [expand_encode, responsesTo_append, regsAfter_clr_pushesOf]
    refine List.drop_left' ?_
    simp only [responsesTo_length, wordsOf, pushesOf, List.length_map, List.length_cons, List.length_append]
    omega
  refine ⟨_, t, hex, (responsesTo_length _ _).trans hlen, fun out hout => ?_, fun hnone => ?_⟩
  · obtain ⟨⟨hg, hs⟩, rfl⟩ := Reference.encodeRef_eq_some_iff.mp hout
    rw [hanswers, answersOf_of_valid hg hs]
    rfl
  · rw [hanswers]
    exact answersOf_of_invalid (Reference.encodeRef_eq_none_iff.mp hnone)

end Sys2Proof

/-! The script lines of R84: a word made of letters and digits is one token, and the reader undoes the writer of
operands. -/

namespace Sys2Proof.Script

/-! ### Tokens -/

/-- A text that is one token and neither a comment, a quotation nor an arrow. -/
def isWord (t : List Char) : Bool := !t.isEmpty && t.all Char.isAlphanum

theorem isWord_iff {t : List Char} : isWord t = true ↔ t ≠ [] ∧ ∀ c ∈ t, c.isAlphanum = true := by
  simp [isWord]

theorem tokens_plain_cons {c : Char} (hc : c.isAlphanum = true) (acc cs : List Char) :
    tokens .plain acc (c :: cs) = tokens .plain (c :: acc) cs := by
  have hne (d : Char) (hd : d.isAlphanum = false) : c ≠ d := by rintro rfl; simp [hc] at hd
  rw [tokens, if_neg (hne _ (by decide)), if_neg (hne _ (by decide)), if_neg (hne _ (by decide)),
    if_neg (hne _ (by decide))]

theorem tokens_plain_append {t : List Char} (ht : ∀ c ∈ t, c.isAlphanum = true) (acc rest : List Char) :
    tokens .plain acc (t ++ rest) = tokens .plain (t.reverse ++ acc) rest := by
  induction t generalizing acc with
  | nil => rfl
  | cons c t ih =>
    obtain ⟨hc, ht⟩ := List.forall_mem_cons.mp ht
    rw [List.cons_append, tokens_plain_cons hc, ih ht]
    simp

theorem flush_reverse {t : List Char} (ht : t ≠ []) : flush t.reverse = [t] := by
  rw [flush, if_neg (by simpa using ht), List.reverse_reverse]

theorem tokens_word {t : List Char} (ht : isWord t = true) : tokens .plain [] t = [t] := by
  obtain ⟨hne, ht⟩ := isWord_iff.mp ht
  have h := tokens_plain_append ht [] []
  rw [List.append_nil, List.append_nil] at h
  rw [h, tokens, flush_reverse hne]

theorem tokens_word_space {t : List Char} (ht : isWord t = true) (rest : List Char) :
    tokens .plain [] (t ++ ' ' :: rest) = t :: tokens .plain [] rest := by
  obtain ⟨hne, ht⟩ := isWord_iff.mp ht
  rw [tokens_plain_append ht, List.append_nil, tokens, if_neg (by decide), if_pos rfl, flush_reverse hne]
  rfl

/-! ### Lines without a stated response -/

theorem splitArrow_of_words {ts : List (List Char)} (h : ∀ t ∈ ts, isWord t = true) : splitArrow ts = (ts, none) := by
  induction ts with
  | nil => rfl
  | cons t ts ih =>
    obtain ⟨ht, hts⟩ := List.forall_mem_cons.mp h
    have hne : t ≠ "->".toList := by rintro rfl; cases ht
    rw [splitArrow, if_neg hne, ih hts]

theorem readLine_of_words {line : List Char} {ts : List (List Char)} {is : List Instr}
    (htokens : tokens .plain [] line = ts) (hwords : ∀ t ∈ ts, isWord t = true) (his : commands ts = some is) :
    readLine line = some { cmds := is, expected := none } := by
  rw [readLine, htokens, splitArrow_of_words hwords]
  simp [his]

/-- A line of one word. -/
theorem readLine_word {m : List Char} {is : List Instr} (hm : isWord m = true) (his : commands [m] = some is) :
    readLine m = some { cmds := is, expected := none } :=
  readLine_of_words (tokens_word hm) (by simp [hm]) his

/-- A line of a mnemonic and an operand. -/
theorem readLine_word_operand {m a : List Char} {is : List Instr} (hm : isWord m = true) (ha : isWord a = true)
    (his : commands [m, a] = some is) : readLine (m ++ ' ' :: a) = some { cmds := is, expected := none } := by
  refine readLine_of_words (ts := [m, a]) ?_ (by simp [hm, ha]) his
  rw [tokens_word_space hm, tokens_word ha]

/-! ### Operands -/

theorem hexDigitText_isAlphanum : ∀ n < 16, (hexDigitText n).isAlphanum = true := by decide

theorem hexDigit_hexDigitText : ∀ n < 16, hexDigit (hexDigitText n) = some n := by decide

theorem decDigit_hexDigitText : ∀ n < 10, decDigit (hexDigitText n) = some n := by decide

theorem charText_isWord (c : CharCode) : isWord (charText c) = true := by
  have hhigh : c.toNat / 16 < 16 := by have := c.isLt; omega
  have hlow : c.toNat % 16 < 16 := by omega
  simp [isWord, charText, hexDigitText_isAlphanum _ hhigh, hexDigitText_isAlphanum _ hlow]

theorem charOperand_charText (c : CharCode) : charOperand (charText c) = some c := by
  have hhigh : c.toNat / 16 < 16 := by have := c.isLt; omega
  have hlow : c.toNat % 16 < 16 := by omega
  have hnumber : number (charText c) = some c.toNat := by
    rw [charText, number, digitsValue, hexDigit_hexDigitText _ hhigh]
    dsimp only
    rw [digitsValue, hexDigit_hexDigitText _ hlow]
    dsimp only
    rw [digitsValue]
    congr 1
    omega
  have hle : c.toNat ≤ 255 := Nat.le_of_lt_succ c.isLt
  rw [charText] at hnumber ⊢
  rw [charOperand, hnumber]
  · simp [hle]
  · simp

theorem decimalText_isWord {n : Nat} (hn : n < 100) : isWord (decimalText n) = true := by
  unfold decimalText
  split
  · simp [isWord, hexDigitText_isAlphanum n (by omega)]
  · simp [isWord, hexDigitText_isAlphanum (n / 10) (by omega), hexDigitText_isAlphanum (n % 10) (by omega)]

theorem decimalBelow_decimalText {n k : Nat} (hn : n < 100) (hk : n < k) :
    decimalBelow k (decimalText n) = some n := by
  unfold decimalText
  split
  · simp [decimalBelow, digitsValue, decDigit_hexDigitText n (by omega), hk]
  · have hvalue : 10 * (n / 10) + n % 10 = n := Nat.div_add_mod n 10
    simp [decimalBelow, digitsValue, decDigit_hexDigitText (n / 10) (by omega),
      decDigit_hexDigitText (n % 10) (by omega), hvalue, hk]

/-! ### Commands with an operand -/

theorem commands_gch (c : CharCode) : commands ["GCH".toList, charText c] = some [.gch c] := by
  show (charOperand (charText c)).map _ = _
  rw [charOperand_charText]
  rfl

theorem commands_sch (c : CharCode) : commands ["SCH".toList, charText c] = some [.sch c] := by
  show (charOperand (charText c)).map _ = _
  rw [charOperand_charText]
  rfl

theorem commands_hex {i : BitVec 5} (hi : i ≤ 23) :
    commands ["HEX".toList, decimalText i.toNat] = some [.hex i] := by
  have hlt : i.toNat < 24 := Nat.lt_succ_of_le hi
  show (decimalBelow 24 (decimalText i.toNat)).map _ = _
  rw [decimalBelow_decimalText (by omega) hlt, Option.map_some, BitVec.ofNat_toNat, BitVec.setWidth_eq]

theorem commands_rds {sel : BitVec 2} (hsel : sel ≤ 2) :
    commands ["RDS".toList, decimalText sel.toNat] = some [.rds sel] := by
  revert sel; decide

end Sys2Proof.Script

namespace Sys2Proof

open Script

/-- Settles O26: the line's words are its tokens, and the reader of each operand undoes its writer. -/
theorem scriptLineOfACommandReadsBack : Obligations.ScriptLineOfACommandReadsBack := by
  intro i hw
  cases i with
  | nop => exact readLine_word (by decide) (by decide)
  | clr => exact readLine_word (by decide) (by decide)
  | enc => exact readLine_word (by decide) (by decide)
  | gch c => exact readLine_word_operand (m := "GCH".toList) (by decide) (charText_isWord c) (commands_gch c)
  | sch c => exact readLine_word_operand (m := "SCH".toList) (by decide) (charText_isWord c) (commands_sch c)
  | hex i =>
    have hi : i ≤ 23 := of_decide_eq_true hw
    exact readLine_word_operand (m := "HEX".toList) (by decide) (decimalText_isWord (by omega)) (commands_hex hi)
  | rds sel =>
    have hsel : sel ≤ 2 := of_decide_eq_true hw
    exact readLine_word_operand (m := "RDS".toList) (by decide) (decimalText_isWord (by omega)) (commands_rds hsel)

end Sys2Proof

/-! The two pushes of the parser (R101, R104): what they write digit by digit, the padding they keep, and that their
interleaving does not matter (R107). -/

namespace Sys2Proof.Machine

/-! ### Digits and flags (R11, R25, R28) -/

/-- R11: the digits are the codes `'0'` to `'9'`. -/
theorem isdigit_iff_le {c : CharCode} : isdigit c = true ↔ 0x30 ≤ c ∧ c ≤ 0x39 := by
  rw [isdigit, Bool.and_eq_true, decide_eq_true_iff, decide_eq_true_iff]

theorem gbadNext_of_digit (b : Bool) {c : CharCode} (h : isdigit c = true) : gbadNext b c = b := by
  simp [gbadNext, h]

theorem gbadNext_of_not_digit (b : Bool) {c : CharCode} (h : isdigit c = false) : gbadNext b c = true := by
  simp [gbadNext, h]

theorem sbadNext_of_digit (b : Bool) {c : CharCode} (h : isdigit c = true) : sbadNext b c = b := by
  simp [sbadNext, h]

theorem sbadNext_of_not_digit (b : Bool) {c : CharCode} (h : isdigit c = false) : sbadNext b c = true := by
  simp [sbadNext, h]

/-- R101: a non-digit, and a digit after 14 characters, leave the window. -/
theorem pushGtin_g_of_no_shift {c : CharCode} {r : Regs} (h : ¬(isdigit c = true ∧ r.gcnt < 14)) :
    (pushGtin c r).g = r.g := by
  rw [pushGtin_g, if_neg (by rwa [Bool.and_eq_true, decide_eq_true_iff])]

/-! ### Executed commands and their words -/

/-- R81: a legal command in one of its phases has its effect. -/
theorem exec_executes {i : Instr} {s : State} (hw : WellFormed i) (ha : allowed i s.regs.ph = true) :
    exec i s = .next (effectOf i s) := by
  rw [exec_eq_guarded, guarded_executes _ hw ha]

/-- R84: the word of a command is `(op << 8) | data`. -/
theorem encode_eq_or (i : Instr) : encode i = (opcodeOf i).setWidth 12 <<< 8 ||| (dataOf i).setWidth 12 := by
  rw [encode, BitVec.append_def, BitVec.shiftLeftZeroExtend_eq, BitVec.setWidth'_eq]

/-! ### The padding (R23, R101) -/

/-- A push takes at most one padding zero, from the left, and counts the character in any case. -/
theorem pushGtin_keeps_padded {r : Regs} (c : CharCode) (h : r.Padded) : (pushGtin c r).Padded := by
  intro i hi
  rw [pushGtin_gcnt, gcntNext_toNat] at hi
  by_cases hshift : isdigit c = true ∧ r.gcnt < 14
  · obtain ⟨hc, hn⟩ := hshift
    have hi13 : i.val < 13 := by omega
    calc (pushGtin c r).g[i] = (shiftIn r.g (dval c))[i] := by rw [pushGtin_g_of_digit hc hn]
      _ = r.g[i.val + 1] := shiftIn_getElem r.g (dval c) i.val hi13
      _ = 0 := h ⟨i.val + 1, by omega⟩ (by dsimp only; omega)
  · rw [pushGtin_g_of_no_shift hshift]
    exact h i (by omega)

/-- Only a GTIN push and a reset write the window or the counter. -/
theorem stepsTo_keeps_padded {r r' : Regs} (hstep : r.StepsTo r') (h : r.Padded) : r'.Padded := by
  cases hstep with
  | unchanged | serial | encoded | failed => exact h
  | reset => exact reset_padded
  | gtin c => exact pushGtin_keeps_padded c h

/-! ### Interleaving (R107) -/

/-- The fill of a transaction does not contain the word of `CLR`. -/
theorem clr_not_mem_wordsOf {cs : List Instr} (hcs : ∀ i ∈ cs, fillsTransaction i = true) : 0x100 ∉ wordsOf cs := by
  intro hmem
  obtain ⟨i, hi, hword⟩ := List.mem_map.mp hmem
  have hfills := hcs i hi
  cases i with
  | clr => cases hfills
  | nop | gch | sch | enc | hex | rds =>
    have hop := congrArg opField hword
    rw [encode, opField_append] at hop
    cases hop

/-- From any phase two fills that push the same two strings leave the same registers. -/
theorem regsAfter_congr_of_strings {cs cs' : List Instr} (hcs : ∀ i ∈ cs, fillsTransaction i = true)
    (hcs' : ∀ i ∈ cs', fillsTransaction i = true) (hgtin : gtinChars cs = gtinChars cs')
    (hserial : serialChars cs = serialChars cs') (r : Regs) :
    regsAfter (wordsOf cs) r = regsAfter (wordsOf cs') r := by
  by_cases hph : r.ph = 0
  · rw [regsAfter_wordsOf hcs hph, regsAfter_wordsOf hcs' hph, hgtin, hserial]
  · rw [regsAfter_of_not_collect hph (clr_not_mem_wordsOf hcs),
      regsAfter_of_not_collect hph (clr_not_mem_wordsOf hcs')]

end Sys2Proof.Machine

namespace Sys2Proof

open Machine

/-- Settles O5: window and `GBAD` by the cases of the character and the counter, the rest by the push's frame. -/
theorem gchPushesOneGtinCharacter : Obligations.GchPushesOneGtinCharacter := by
  refine ⟨fun c s hph => ?_, fun c s hph => exec_refuses rfl (beq_eq_false_iff_ne.mpr hph),
    fun c => decode_eq_legal_iff.mpr ⟨(encode_eq_or (.gch c)).symm, rfl⟩⟩
  simp only [← and_assoc (c := s.regs.gcnt < 14), ← isdigit_iff_le]
  refine ⟨_, exec_executes rfl (beq_iff_eq.mpr hph), rfl, rfl, ?shift, pushGtin_g_of_no_shift,
    gbadNext_of_digit _, fun hc => gbadNext_of_not_digit _ (Bool.eq_false_iff.mpr hc), gcntNext_toNat _,
    rfl, rfl, rfl, rfl, rfl, rfl, rfl⟩
  case shift =>
    rintro ⟨hc, hn⟩
    have hg : (effectOf (.gch c) s).regs.g = shiftIn s.regs.g (dval c) := pushGtin_g_of_digit hc hn
    rw [hg]
    exact ⟨fun i => shiftIn_getElem _ _ i.val i.isLt, dval_toNat hc⟩

/-- Settles O6: a digit and a non-digit apart, the rest by the frame of the push. -/
theorem schAccumulatesOneSerialCharacter : Obligations.SchAccumulatesOneSerialCharacter := by
  refine ⟨fun c s hph => ?_, fun c s hph => exec_refuses rfl (beq_eq_false_iff_ne.mpr hph),
    fun c => decode_eq_legal_iff.mpr ⟨(encode_eq_or (.sch c)).symm, rfl⟩⟩
  simp only [← isdigit_iff_le]
  refine ⟨_, exec_executes rfl (beq_iff_eq.mpr hph), rfl, rfl, rfl, fun hc => ?digit, fun hc => ?nonDigit,
    rfl, rfl, rfl, rfl, rfl, rfl⟩
  case digit =>
    refine ⟨saccNext_of_digit _ hc, ?_, sbadNext_of_digit _ hc⟩
    have hovf : (effectOf (.sch c) s).regs.sovf =
        (s.regs.sovf || decide (2 ^ 38 ≤ s.regs.sacc.toNat * 10 + (c.toNat - 48))) := sovfNext_of_digit _ _ hc
    rw [hovf, Bool.or_eq_true, decide_eq_true_iff]
    rfl
  case nonDigit =>
    have hc : isdigit c = false := Bool.eq_false_iff.mpr hc
    exact ⟨sbadNext_of_not_digit _ hc, saccNext_of_not_digit _ hc, sovfNext_of_not_digit _ _ hc⟩

/-- Settles O7: the two sums, and their bounds when each digit is at most 9. -/
theorem parsedFieldsAreDecimalAndFit : Obligations.ParsedFieldsAreDecimalAndFit := by
  refine fun g => ⟨cpval_toNat g, irval_toNat g, fun hg => ?_⟩
  have hdigit (i : Nat) (hi : i < 14 := by decide) : g[i].toNat ≤ 9 := hg ⟨i, hi⟩
  rw [cpval_toNat, irval_toNat]
  constructor
  · linarith [hdigit 1, hdigit 2, hdigit 3, hdigit 4, hdigit 5, hdigit 6, hdigit 7]
  · linarith [hdigit 8, hdigit 9, hdigit 10, hdigit 11, hdigit 12]

/-- Settles O8: the frames are those of R37, and the registers after each list are those of its two strings. -/
theorem interleavingOfPushesDoesNotMatter : Obligations.InterleavingOfPushesDoesNotMatter := by
  obtain ⟨-, -, -, hgch, hsch, -, -⟩ := everyCommandKeepsItsFrame
  refine ⟨fun c s t h => (hgch c s t h).1, fun c s t h => (hsch c s t h).1, ?_⟩
  intro cs cs' s hcs hcs' hgtin hserial
  obtain ⟨t, hex, hregs, -⟩ := exchange_completes (wordsOf cs) s
  obtain ⟨t', hex', hregs', -⟩ := exchange_completes (wordsOf cs') s
  exact ⟨_, _, t, t', hex, hex',
    hregs.trans ((regsAfter_congr_of_strings hcs hcs' hgtin hserial s.regs).trans hregs'.symm)⟩

/-- Settles O38: each step keeps the padding, and position 0 is padding while a position is still free. -/
theorem everyStepKeepsThePadding : Obligations.EveryStepKeepsThePadding := by
  refine ⟨fun s t hpadded hstep => stepsTo_keeps_padded (step_stepsTo hstep) hpadded, fun s hpadded hn => ?_⟩
  have hn14 : s.regs.gcnt.toNat < 14 := hn
  exact hpadded 0 (Nat.sub_pos_of_lt hn14)

end Sys2Proof

/-! The packer: the fields of `pack96` (R131), the code a successful `ENC` latches and its range (R133, R134), and a
whole transaction against the reference function, with its error classes (R138). -/

namespace Sys2Proof.Reference

/-- The condition of the second row of R138 beside the length: a non-digit in either string, or an empty serial. -/
def HasInvalidDigitInput (g s : List CharCode) : Prop :=
  (∃ c ∈ g, isDigit c = false) ∨ s = [] ∨ ∃ c ∈ s, isDigit c = false

theorem serialDigits_iff {s : List CharCode} :
    serialDigits s = true ↔ s ≠ [] ∧ ∀ c ∈ s, isDigit c = true := by
  simp [serialDigits, Nat.succ_le_iff, List.length_pos_iff]

theorem not_hasInvalidDigitInput_iff {g s : List CharCode} :
    ¬HasInvalidDigitInput g s ↔ (∀ c ∈ g, isDigit c = true) ∧ serialDigits s = true := by
  simp [HasInvalidDigitInput, serialDigits_iff]

/-- R138: the four rows are exhaustive, because each one's condition is what fails in the rows before it. -/
theorem rows_exhaustive (g s : List CharCode) :
    14 < g.length ∨ (g.length ≤ 14 ∧ HasInvalidDigitInput g s) ∨
    (gtinOk g = true ∧ serialDigits s = true ∧ 2 ^ 38 ≤ decimal s) ∨
    (gtinOk g = true ∧ serialOk s = true) := by
  by_cases hlen : g.length ≤ 14
  · by_cases hinvalid : HasInvalidDigitInput g s
    · exact .inr (.inl ⟨hlen, hinvalid⟩)
    · obtain ⟨hdigits, hs⟩ := not_hasInvalidDigitInput_iff.mp hinvalid
      have hg : gtinOk g = true := gtinOk_iff.mpr ⟨hlen, hdigits⟩
      obtain hlt | hge := Nat.lt_or_ge (decimal s) (2 ^ 38)
      · exact .inr (.inr (.inr ⟨hg, serialOk_iff.mpr ⟨hs, hlt⟩⟩))
      · exact .inr (.inr (.inl ⟨hg, hs, hge⟩))
  · exact .inl (Nat.lt_of_not_ge hlen)

theorem hexString_getElem? (v : Nat) {i : Nat} (hi : i ≤ 23) : (hexString v)[i]? = some (hexCharAt v i) := by
  rw [hexString, List.getElem?_map, List.getElem?_range (Nat.lt_succ_of_le hi), Option.map_some]

end Sys2Proof.Reference

namespace Sys2Proof.Machine

/-! ### The fields of the code (R131) -/

/-- R131: concatenation is the OR of the shifted fields. -/
theorem pack96_toNat_eq_or (cp : CompanyPrefix) (ir : ItemRef) (sn : Serial) : (pack96 cp ir sn).toNat =
    (0x30 <<< 88) ||| (1 <<< 85) ||| (5 <<< 82) ||| (cp.toNat <<< 58) ||| (ir.toNat <<< 38) ||| sn.toNat := by
  simp only [pack96, BitVec.toNat_append, Nat.shiftLeft_or_distrib, ← Nat.shiftLeft_add]
  rfl

/-- R134: no field reaches into the next, so the code grows with each of the three. -/
theorem pack96_mono {cp cp' : CompanyPrefix} {ir ir' : ItemRef} {sn sn' : Serial} (hcp : cp.toNat ≤ cp'.toNat)
    (hir : ir.toNat ≤ ir'.toNat) (hsn : sn.toNat ≤ sn'.toNat) : pack96 cp ir sn ≤ pack96 cp' ir' sn' := by
  rw [BitVec.le_def, pack96_toNat, pack96_toNat]
  omega

/-! ### `ENC` and `HEX` on a state (R133, R153) -/

/-- R133: an encode without a cause, on the whole state. -/
theorem exec_enc_latches {s : State} (hph : s.regs.ph = Phase.collect) (hc : s.regs.encCause = Cause.none) :
    exec .enc s =
      .next { s with regs := { s.regs with epc := s.regs.code, ph := Phase.done }, rsp := some 0x000 } := by
  have ha : allowed .enc s.regs.ph = true := beq_iff_eq.mpr hph
  rw [exec_executes rfl ha, effectOf, encodeNow, if_pos hc]
  rfl

/-- R153 in DONE, on the whole state. -/
theorem exec_hex_of_done {i : BitVec 5} (hi : i ≤ 23) {s : State} (hph : s.regs.ph = Phase.done) :
    exec (.hex i) s = .next { s with rsp := some (0b00#2 ++ hexchar (nib s.regs.epc i.toNat)) } :=
  exec_executes (decide_eq_true hi) (beq_iff_eq.mpr hph)

/-- R153 outside DONE. -/
theorem exec_hex_of_not_done {i : BitVec 5} (hi : i ≤ 23) {s : State} (hph : s.regs.ph ≠ Phase.done) :
    exec (.hex i) s = .next { s with rsp := some 0x200 } :=
  exec_refuses (decide_eq_true hi) (beq_eq_false_iff_ne.mpr hph)

/-! ### The cause by the row of R138 (R195) -/

theorem encCause_of_overlong (gb sb sn so : Bool) : encCause 15 gb sb sn so = Cause.malformedGtinLength := rfl

theorem encCause_of_invalid {n : BitVec 4} {gb sb sn : Bool} (so : Bool) (hn : n ≠ 15)
    (h : gb = true ∨ sb = true ∨ sn = false) : encCause n gb sb sn so = Cause.invalidDigitInput := by
  revert n gb sb sn so; decide

theorem encCause_of_overflow {n : BitVec 4} (hn : n ≠ 15) :
    encCause n false false true true = Cause.serialOutOfRange := by
  revert n; decide

section rows
variable {g s : List CharCode}

theorem regsOfStrings_cause : (regsOfStrings g s).cause = 0 := by
  rw [regsOfStrings, pushSerials_frame, pushGtins_frame]
  rfl

theorem regsOfStrings_epc : (regsOfStrings g s).epc = 0 := by
  rw [regsOfStrings, pushSerials_frame, pushGtins_frame]
  rfl

theorem regsOfStrings_gcnt_eq_sat_iff : (regsOfStrings g s).gcnt = 15 ↔ 14 < g.length := by
  have h15 : (15 : BitVec 4).toNat = 15 := rfl
  rw [← BitVec.toNat_inj, regsOfStrings_gcnt, h15]
  omega

theorem regsOfStrings_encCause_of_overlong (h : 14 < g.length) :
    (regsOfStrings g s).encCause = Cause.malformedGtinLength := by
  rw [Regs.encCause, regsOfStrings_gcnt_eq_sat_iff.mpr h, encCause_of_overlong]

theorem regsOfStrings_encCause_of_invalid (hlen : g.length ≤ 14) (h : Reference.HasInvalidDigitInput g s) :
    (regsOfStrings g s).encCause = Cause.invalidDigitInput := by
  refine encCause_of_invalid _ (mt regsOfStrings_gcnt_eq_sat_iff.mp (Nat.not_lt.mpr hlen)) ?_
  rw [regsOfStrings_gbad, regsOfStrings_sbad, regsOfStrings_sne]
  obtain ⟨c, hc, hdigit⟩ | rfl | ⟨c, hc, hdigit⟩ := h
  · exact .inl (List.any_eq_true.mpr ⟨c, hc, by rw [hdigit]; rfl⟩)
  · exact .inr (.inr rfl)
  · exact .inr (.inl (List.any_eq_true.mpr ⟨c, hc, by rw [hdigit]; rfl⟩))

theorem regsOfStrings_encCause_of_overflow (hg : Reference.gtinOk g = true) (hs : Reference.serialDigits s = true)
    (h : 2 ^ 38 ≤ Reference.decimal s) : (regsOfStrings g s).encCause = Cause.serialOutOfRange := by
  obtain ⟨hlen, hgdigits⟩ := Reference.gtinOk_iff.mp hg
  obtain ⟨hne, hsdigits⟩ := Reference.serialDigits_iff.mp hs
  have hn : (regsOfStrings g s).gcnt ≠ 15 := mt regsOfStrings_gcnt_eq_sat_iff.mp (Nat.not_lt.mpr hlen)
  have hgbad : (regsOfStrings g s).gbad = false := by simpa [regsOfStrings_gbad] using hgdigits
  have hsbad : (regsOfStrings g s).sbad = false := by simpa [regsOfStrings_sbad] using hsdigits
  have hsne : (regsOfStrings g s).sne = true := by
    simpa [regsOfStrings_sne, Nat.succ_le_iff, List.length_pos_iff] using hne
  have hsovf : (regsOfStrings g s).sovf = true := (regsOfStrings_value g (List.all_eq_true.mpr hsdigits)).2.mpr h
  rw [Regs.encCause, hgbad, hsbad, hsne, hsovf, encCause_of_overflow hn]

/-! ### The transaction (R138) -/

/-- The registers and the response after `ENC` on the two strings of a fresh transaction. -/
def encOnStrings (g s : List CharCode) : Regs × RspWord := transition (encode .enc) (regsOfStrings g s)

/-- The first three rows of R138: `EPC` keeps its reset value. -/
theorem encOnStrings_raises {k : BitVec 2} (hc : (regsOfStrings g s).encCause = k) (hk : k ≠ Cause.none) :
    (encOnStrings g s).2 = Code.err ++ k.setWidth 8 ∧ (encOnStrings g s).1.ph = Phase.err ∧
      (encOnStrings g s).1.cause = k ∧ (encOnStrings g s).1.epc = 0 := by
  subst hc
  rw [encOnStrings, transition_enc_raises (regsOfStrings_ph g s) hk]
  exact ⟨rfl, rfl, rfl, regsOfStrings_epc⟩

/-- The last row of R138. -/
theorem encOnStrings_latches (hg : Reference.gtinOk g = true) (hs : Reference.serialOk s = true) :
    (encOnStrings g s).2 = 0x000 ∧ (encOnStrings g s).1.ph = Phase.done ∧ (encOnStrings g s).1.cause = 0 ∧
      (encOnStrings g s).1.epc.toNat = Reference.value g s := by
  rw [encOnStrings, transition_enc_latches (regsOfStrings_ph g s) ((regsOfStrings_encCause g s).mpr ⟨hg, hs⟩)]
  exact ⟨rfl, rfl, regsOfStrings_cause, regsOfStrings_code hg hs⟩

theorem encOnStrings_ph_of_invalid (h : ¬(Reference.gtinOk g = true ∧ Reference.serialOk s = true)) :
    (encOnStrings g s).1.ph = Phase.err :=
  (encOnStrings_raises rfl (mt (regsOfStrings_encCause g s).mp h)).2.1

/-- A transaction from the reset registers is answered command by command and amounts to `ENC` on its two strings. -/
theorem exchange_fill_enc {cs : List Instr} {st : State} (hcs : ∀ i ∈ cs, fillsTransaction i = true)
    (hst : st.regs = Regs.reset) : ∃ rs t,
      exchange (wordsOf cs ++ [encode .enc]) st =
        some (rs ++ [(encOnStrings (gtinChars cs) (serialChars cs)).2], t) ∧
      rs.length = cs.length ∧ t.regs = (encOnStrings (gtinChars cs) (serialChars cs)).1 := by
  obtain ⟨t, hex, hregs, -⟩ := exchange_completes (wordsOf cs ++ [encode .enc]) st
  have hfill : regsAfter (wordsOf cs) st.regs = regsOfStrings (gtinChars cs) (serialChars cs) := by
    rw [hst, regsAfter_wordsOf hcs rfl, regsOfStrings]
  rw [responsesTo_append, hfill] at hex
  rw [regsAfter_append, hfill] at hregs
  exact ⟨_, t, hex, by rw [responsesTo_length, wordsOf, List.length_map], hregs⟩

/-- R138, the reads of the last row. -/
theorem exec_hex_of_encodeRef_some {t : State} (ht : t.regs = (encOnStrings g s).1) {out : List CharCode}
    (hout : Reference.encodeRef g s = some out) {i : BitVec 5} (hi : i ≤ 23) :
    ∃ ch, out[i.toNat]? = some ch ∧ exec (.hex i) t = .next { t with rsp := some (0b00#2 ++ ch) } := by
  obtain ⟨⟨hg, hs⟩, rfl⟩ := Reference.encodeRef_eq_some_iff.mp hout
  obtain ⟨-, hph, -, hepc⟩ := encOnStrings_latches hg hs
  rw [← ht] at hph hepc
  refine ⟨_, Reference.hexString_getElem? _ hi, ?_⟩
  rw [exec_hex_of_done hi hph, hexchar_nib_eq_reference _ _ hi, hepc]

/-- R138, the reads of the first three rows. -/
theorem exec_hex_of_encodeRef_none {t : State} (ht : t.regs = (encOnStrings g s).1)
    (hnone : Reference.encodeRef g s = none) {i : BitVec 5} (hi : i ≤ 23) :
    exec (.hex i) t = .next { t with rsp := some 0x200 } := by
  refine exec_hex_of_not_done hi ?_
  rw [ht, encOnStrings_ph_of_invalid (Reference.encodeRef_eq_none_iff.mp hnone)]
  decide

end rows

end Sys2Proof.Machine

namespace Sys2Proof

open Machine

/-- Settles O11: each field is reached by passing the fields below it, each of which ends at or below its first bit. -/
theorem packPlacesEachFieldInItsBits : Obligations.PackPlacesEachFieldInItsBits := by
  intro cp ir sn
  refine ⟨?header, ?filter, ?partition, ?companyPrefix, ?itemRef, BitVec.extractLsb'_append_eq_right,
    pack96_toNat_eq_or cp ir sn⟩
  all_goals
    simp only [pack96, BitVec.extractLsb'_append_eq_of_le, Nat.reduceLeDiff, Nat.reduceSub,
      BitVec.extractLsb'_append_eq_right]
  case header | filter | partition => rfl

/-- Settles O13: the flags leave no cause, and the latched code is the sum of its fields, each the sum of its digits. -/
theorem encLatchesTheCodeOfValidInputs : Obligations.EncLatchesTheCodeOfValidInputs := by
  intro s hph hgcnt hgbad hsbad hsne hsovf
  have hc : s.regs.encCause = Cause.none :=
    (encCause_eq_none_iff _ _ _ _ _).mpr ⟨hgcnt, hgbad, hsbad, hsne, hsovf⟩
  refine ⟨s.regs.code, exec_enc_latches hph hc, ?_⟩
  have hconst : 0x30 * 2 ^ 88 + 1 * 2 ^ 85 + 5 * 2 ^ 82 = 0x303400000000000000000000 := by decide
  rw [Regs.code, pack96_toNat, cpval_toNat, irval_toNat, snval, hconst]

/-- Settles O15: the code grows with each field, and R102, R103 and the width of the serial bound the fields. -/
theorem latchedCodeStaysInItsRange : Obligations.LatchedCodeStaysInItsRange := by
  intro s hinv hlatched hph
  obtain ⟨-, -, -, -, hdigits⟩ := hinv
  obtain ⟨-, -, hfit⟩ := parsedFieldsAreDecimalAndFit s.regs.g
  obtain ⟨hcp, hir⟩ := hfit hdigits
  have hsn : (snval s.regs.sacc).toNat ≤ 274877906943 := Nat.le_of_lt_succ (snval s.regs.sacc).isLt
  have hmin : 0x303400000000000000000000 = pack96 0 0 0 := by decide
  have hmax : 0x30366259FC61A7FFFFFFFFFF = pack96 9999999 99999 274877906943 := by decide
  rw [hlatched hph, Regs.code, hmin, hmax]
  exact ⟨pack96_mono (Nat.zero_le _) (Nat.zero_le _) (Nat.zero_le _), pack96_mono hcp hir hsn⟩

/-- Settles O50: the transaction is `ENC` on the registers of its two strings, and the rows of R138 are the causes that
`ENC` finds there. -/
theorem transactionEqualsTheReferenceFunction : Obligations.TransactionEqualsTheReferenceFunction := by
  intro cs s hcs hs
  obtain ⟨rs, t, hex, hlen, ht⟩ := exchange_fill_enc hcs hs
  refine ⟨rs, _, t, hex, hlen, Reference.rows_exhaustive _ _, fun hlong => ?overlong, fun hshort hinvalid => ?invalid,
    fun hg hserial hbig => ?overflow, fun hg hserial => ?valid,
    fun i hi => ⟨fun out hout => exec_hex_of_encodeRef_some ht hout hi,
      fun hnone => exec_hex_of_encodeRef_none ht hnone hi⟩⟩ <;> rw [ht]
  case overlong => exact encOnStrings_raises (regsOfStrings_encCause_of_overlong hlong) (by decide)
  case invalid => exact encOnStrings_raises (regsOfStrings_encCause_of_invalid hshort hinvalid) (by decide)
  case overflow => exact encOnStrings_raises (regsOfStrings_encCause_of_overflow hg hserial hbig) (by decide)
  case valid => exact encOnStrings_latches hg hserial

end Sys2Proof

/-! The hex formatter on numbers: the character of each nibble and the words of `HEX` (R151 to R153), what the string
says of the value (R155), and the characters that the constant fields fix (R57). -/

namespace Sys2Proof.Machine

/-! ### The character of a nibble (R152, R153) -/

theorem hexchar_nib_toNat (v : Epc96) {i : Nat} (hi : i ≤ 23) : (hexchar (nib v i)).toNat =
    if v.toNat / 16 ^ (23 - i) % 16 ≤ 9 then 0x30 + v.toNat / 16 ^ (23 - i) % 16
    else 0x41 + (v.toNat / 16 ^ (23 - i) % 16 - 10) := by
  rw [hexchar_toNat, nib_toNat v i hi]
  split
  · rfl
  · omega

/-- R153 in DONE when the nibble is known. -/
theorem exec_hex_of_nib {i : BitVec 5} (hi : i ≤ 23) {s : State} (hph : s.regs.ph = Phase.done) {n : BitVec 4}
    (hn : nib s.regs.epc i.toNat = n) : exec (.hex i) s = .next { s with rsp := some (0b00#2 ++ hexchar n) } := by
  rw [exec_hex_of_done hi hph, hn]

/-! ### The words of `HEX` (R73, R79) -/

/-- R84: the word of `HEX i` is 0x500 with the index in its low bits. -/
theorem encode_hex_eq_or (i : BitVec 5) : encode (.hex i) = 0x500 ||| i.setWidth 12 := by
  revert i; decide

/-- R79: `HEX` with an operand byte above 23 is refused. -/
theorem runWord_hex_illegal {d : BitVec 8} (hd : 23 < d.toNat) (s : State) :
    runWord (0x5#4 ++ d) s = .next s.answerIll := by
  have hclass : illegalClass (decode (0x5#4 ++ d)) = some .hexIndexOutOfRange := by
    rw [decode, opField_append, dataField_append]
    exact (illegalClass_decodeHex d).trans (if_neg (Nat.not_lt.mpr hd))
  obtain ⟨why, h⟩ := exists_illegal_iff.mpr (by rw [hclass]; nofun)
  exact runWord_illegal h s

/-! ### The string determines the value (R151, R155) -/

/-- R151: bit `j` of the value is bit `j mod 4` of nibble `23 - j div 4`. -/
theorem getLsbD_eq_getLsbD_nib (v : Epc96) {j : Nat} (hj : j < 96) :
    v.getLsbD j = (nib v (23 - j / 4)).getLsbD (j % 4) := by
  have hbit : 92 - 4 * (23 - j / 4) + j % 4 = j := by omega
  have hmod : j % 4 < 4 := Nat.mod_lt _ (by decide)
  rw [nib, BitVec.getLsbD_extractLsb', hbit, decide_eq_true hmod, Bool.true_and]

theorem eq_of_nib_eq {v v' : Epc96} (h : ∀ i < 24, nib v i = nib v' i) : v = v' := by
  refine BitVec.eq_of_getLsbD_eq fun j hj => ?_
  rw [getLsbD_eq_getLsbD_nib v hj, getLsbD_eq_getLsbD_nib v' hj, h (23 - j / 4) (by omega)]

theorem hexstr_injective {v v' : Epc96} (h : hexstr v = hexstr v') : v = v' :=
  eq_of_nib_eq fun _ hi => hexchar_injective (List.map_inj_left.mp h _ (List.mem_range.mpr hi))

/-! ### The leading nibbles (R57, R134) -/

/-- R57: a code in the range of R134 begins with 0x3034, 0x3035 or 0x3036. -/
theorem leading_nibs_of_range {v : Epc96} (hlow : 0x303400000000000000000000 ≤ v)
    (hhigh : v ≤ 0x30366259FC61A7FFFFFFFFFF) :
    nib v 0 = 3 ∧ nib v 1 = 0 ∧ nib v 2 = 3 ∧ (nib v 3 = 4 ∨ nib v 3 = 5 ∨ nib v 3 = 6) := by
  simp only [BitVec.le_def, BitVec.reduceToNat] at hlow hhigh
  simp only [← BitVec.toNat_inj, nib_toNat, Nat.reduceLeDiff, Nat.reduceSub, Nat.reducePow, BitVec.reduceToNat]
  omega

end Sys2Proof.Machine

namespace Sys2Proof

open Machine

/-- Settles O17: the character of the nibble in naturals, the refusals by phase and by word, and the word of `HEX`. -/
theorem hexReturnsOneCharacter : Obligations.HexReturnsOneCharacter :=
  ⟨fun _ _ hi hph => ⟨_, exec_hex_of_done hi hph, hexchar_nib_toNat _ hi⟩,
    fun _ _ hi hph => exec_hex_of_not_done hi hph,
    fun i hi => decode_eq_legal_iff.mpr ⟨(encode_hex_eq_or i).symm, decide_eq_true hi⟩,
    fun _ s hd => runWord_hex_illegal hd s⟩

/-- Settles O18: the shape is that of the reference's string, and equal characters come from equal nibbles. -/
theorem hexstrIsUppercaseAndDeterminesTheValue : Obligations.HexstrIsUppercaseAndDeterminesTheValue := by
  refine ⟨fun v => ?_, fun _ _ => hexstr_injective⟩
  rw [hexstr_eq_reference]
  exact ⟨Reference.hexString_length _, fun _ => Reference.hexString_mem_alphabet⟩

/-- Settles O20: the range of the latched code fixes the first three nibbles and leaves three values for the fourth. -/
theorem firstCharactersAreFixed : Obligations.FirstCharactersAreFixed := by
  intro s hinv hlatched hph
  obtain ⟨hlow, hhigh⟩ := latchedCodeStaysInItsRange s hinv hlatched hph
  obtain ⟨h0, h1, h2, h3⟩ := leading_nibs_of_range hlow hhigh
  have hex3 {n : BitVec 4} (hn : nib s.regs.epc 3 = n) := exec_hex_of_nib (i := 3) (by decide) hph hn
  exact ⟨exec_hex_of_nib (i := 0) (by decide) hph h0, exec_hex_of_nib (i := 1) (by decide) hph h1,
    exec_hex_of_nib (i := 2) (by decide) hph h2, h3.imp hex3 (Or.imp hex3 hex3)⟩

end Sys2Proof

/-! The control and status commands in every phase: what `NOP`, `CLR` and `RDS` answer (R170 to R172), the illegal words
of an opcode, and the arcs of the phase diagram (R176). -/

namespace Sys2Proof.Machine

/-! ### Refused words (R79) -/

/-- R79: a word whose operand byte is above the legal ones of its opcode answers `ILL`. -/
theorem runWord_of_legalBelow_le {op : BitVec 4} {d : BitVec 8} (hd : legalBelow op.toNat ≤ d.toNat) (s : State) :
    runWord (op ++ d) s = .next { s with rsp := some 0x300 } := by
  have hclass : illegalClass (decode (op ++ d)) = some (illegalClassOf op.toNat) := by
    rw [decode, opField_append, dataField_append, illegalClass_decodeFields, if_neg (Nat.not_lt.mpr hd)]
  obtain ⟨why, h⟩ := exists_illegal_iff.mpr (by rw [hclass]; nofun)
  exact runWord_illegal h s

/-- R79 item 2: a command without an operand has no word with a nonzero operand byte. -/
theorem runWord_of_nonzeroData {op : BitVec 4} (hop : legalBelow op.toNat = 1) {d : BitVec 8} (hd : d ≠ 0) (s : State) :
    runWord (op ++ d) s = .next { s with rsp := some 0x300 } :=
  runWord_of_legalBelow_le (hop ▸ Nat.one_le_iff_ne_zero.mpr fun h => hd (BitVec.eq_of_toNat_eq h)) s

/-! ### `CLR` (R171) -/

/-- R171: `CLR` in every phase, on the whole state. -/
theorem exec_clr (s : State) : exec .clr s = .next { s with regs := Regs.reset, rsp := some 0x000 } :=
  exec_executes rfl rfl

theorem transition_clr (r : Regs) : transition (encode .clr) r = (Regs.reset, 0x000) :=
  transition_of_allowed rfl rfl

/-- R171: what follows `CLR` is answered as after reset. -/
theorem responsesTo_clr (ws : List CmdWord) (r : Regs) :
    responsesTo (encode .clr :: ws) r = 0x000 :: responsesTo ws Regs.reset := by
  rw [responsesTo, transition_clr]

theorem regsAfter_clr (ws : List CmdWord) (r : Regs) :
    regsAfter (encode .clr :: ws) r = regsAfter ws Regs.reset := by
  rw [regsAfter, List.foldl_cons, transition_clr, regsAfter]

/-! ### The views (R32, R172) -/

/-- A one-bit field below the others. -/
theorem toNat_append_ofBool {n : Nat} (x : BitVec n) (b : Bool) :
    (x ++ BitVec.ofBool b).toNat = x.toNat * 2 + if b = true then 1 else 0 := by
  rw [BitVec.toNat_append, ← Nat.shiftLeft_add_eq_or_of_lt (BitVec.isLt _), Nat.shiftLeft_eq]
  cases b <;> rfl

/-- Reserved bits, which read 0, above a field. -/
theorem toNat_zero_append {m n : Nat} (x : BitVec n) : (0#m ++ x).toNat = x.toNat := by
  rw [BitVec.toNat_append]; simp

theorem statusView_toNat (r : Regs) : (statusView r).toNat =
    r.cause.toNat * 4 + (if r.ph = 2 then 2 else 0) + (if r.ph = 1 then 1 else 0) := by
  simp only [statusView, toNat_append_ofBool, toNat_zero_append, beq_iff_eq, add_mul, ite_mul, mul_assoc, Nat.reduceMul]

theorem flagsView_toNat (r : Regs) : (flagsView r).toNat =
    (if r.gcnt = 15 then 16 else 0) + (if r.sovf = true then 8 else 0) + (if r.sne = true then 4 else 0) +
      (if r.sbad = true then 2 else 0) + (if r.gbad = true then 1 else 0) := by
  simp only [flagsView, toNat_append_ofBool, BitVec.toNat_zero, beq_iff_eq, add_mul, ite_mul, Nat.reduceMul, zero_add]

theorem gcntrView_toNat (r : Regs) : (gcntrView r).toNat = r.gcnt.toNat :=
  toNat_zero_append r.gcnt

/-- R172 on the whole state. -/
theorem exec_rds {sel : BitVec 2} (hsel : sel ≤ 2) (s : State) :
    exec (.rds sel) s = .next { s with rsp := some (0b00#2 ++ viewOf sel s.regs) } :=
  exec_executes (decide_eq_true hsel) rfl

theorem statusView_of_ph {r : Regs} {p c : BitVec 2} (hph : r.ph = p) (hc : r.cause = c) :
    statusView r = 0#4 ++ c ++ BitVec.ofBool (p == Phase.err) ++ BitVec.ofBool (p == Phase.done) := by
  rw [statusView, hph, hc]

/-! ### The arcs of the phases (R176) -/

/-- The two rows of `ENC` in the table of R176: to DONE with the code latched, or to ERR with the cause written. -/
def Regs.EncArc (r r' : Regs) : Prop :=
  (r.encCause = 0 ∧ r'.ph = 1 ∧ r'.epc = r.code) ∨ (r.encCause ≠ 0 ∧ r'.ph = 2 ∧ r'.cause = r.encCause)

theorem effectOf_enc_arc (s : State) : s.regs.EncArc (effectOf .enc s).regs := by
  rw [effectOf_regs]
  dsimp only
  split
  · exact .inl ⟨‹_›, rfl, rfl⟩
  · exact .inr ⟨‹_›, rfl, rfl⟩

theorem step_offer_enc {s : State} (hph : s.regs.ph = 0) : step (s.offer 0x400) = .next (effectOf .enc s) :=
  (step_offer s _).trans ((runWord_legal rfl s).trans (exec_executes rfl (beq_iff_eq.mpr hph)))

/-- The inversion of a command that changes the phase: it is `CLR`, or `ENC` in COLLECT. -/
theorem exec_changes_ph {i : Instr} {s t : State} (h : exec i s = .next t) (hne : t.regs.ph ≠ s.regs.ph) :
    (i = .clr ∧ t.regs = Regs.reset) ∨ (i = .enc ∧ s.regs.ph = 0 ∧ s.regs.EncArc t.regs) := by
  obtain ⟨-, ha, rfl⟩ | ⟨-, -, rfl⟩ | ⟨-, rfl⟩ := exec_cases h
  · cases i with
    | nop | gch | sch | hex | rds => rw [effectOf_regs] at hne; exact absurd rfl hne
    | clr => exact .inl ⟨rfl, rfl⟩
    | enc => exact .inr ⟨rfl, eq_of_beq ha, effectOf_enc_arc s⟩
  · exact absurd rfl hne
  · exact absurd rfl hne

/-- The inversion of a word that changes the phase: it is that of `CLR`, or that of `ENC` in COLLECT. -/
theorem runWord_changes_ph {w : CmdWord} {s t : State} (h : runWord w s = .next t) (hne : t.regs.ph ≠ s.regs.ph) :
    (w = 0x100 ∧ t.regs = Regs.reset) ∨ (w = 0x400 ∧ s.regs.ph = 0 ∧ s.regs.EncArc t.regs) := by
  cases hd : decode w with
  | illegal why =>
    rw [runWord_illegal hd] at h
    cases h
    exact absurd rfl hne
  | legal i =>
    rw [runWord_legal hd] at h
    obtain ⟨rfl, hregs⟩ | ⟨rfl, harc⟩ := exec_changes_ph h hne
    · exact .inl ⟨(encode_of_decode hd).symm, hregs⟩
    · exact .inr ⟨(encode_of_decode hd).symm, harc⟩

/-- The inversion of a step that changes the phase: a reset, `CLR`, or `ENC` in COLLECT. -/
theorem step_changes_ph {s t : State} (h : step s = .next t) (hne : t.regs.ph ≠ s.regs.ph) :
    (t.regs = Regs.reset ∧ ∃ m rest, s.host = m :: rest ∧
      (m = .reset ∨ (∃ w, m = .commandThenReset w) ∨ m = .command 0x100)) ∨
    (s.regs.ph = 0 ∧ (∃ rest, s.host = .command 0x400 :: rest) ∧ s.regs.EncArc t.regs) := by
  cases hh : s.host with
  | nil => rw [step_no_move hh] at h; cases h; exact absurd rfl hne
  | cons m rest =>
    cases m with
    | idle => rw [step_idle hh] at h; cases h; exact absurd rfl hne
    | command w =>
      rw [step_command hh] at h
      obtain ⟨rfl, hregs⟩ | ⟨rfl, hph, harc⟩ := runWord_changes_ph h hne
      · exact .inl ⟨hregs, _, rest, rfl, .inr (.inr rfl)⟩
      · exact .inr ⟨hph, ⟨rest, rfl⟩, harc⟩
    | reset => rw [step_reset hh] at h; cases h; exact .inl ⟨rfl, _, rest, rfl, .inl rfl⟩
    | commandThenReset w =>
      rw [step_commandThenReset hh] at h; cases h
      exact .inl ⟨rfl, _, rest, rfl, .inr (.inl ⟨w, rfl⟩)⟩
    | changeWhileWaiting | missResponse => simp [step, hh] at h

end Sys2Proof.Machine

namespace Sys2Proof

open Machine

/-- Settles O41: the arcs by the effects of `CLR`, reset and `ENC`, and that there is no other by inverting the step. -/
theorem phaseChangesOnlyByTheTable : Obligations.PhaseChangesOnlyByTheTable := by
  refine ⟨fun s => ⟨_, (step_offer s _).trans (exec_clr s), rfl⟩, fun s rest => ⟨_, step_reset rfl, rfl⟩,
    fun s hph hc => ⟨_, step_offer_enc hph, ?done⟩, fun s hph hc => ⟨_, step_offer_enc hph, ?err⟩,
    fun s t => step_changes_ph⟩
  case done => exact ((effectOf_enc_arc s).resolve_right fun h => h.1 hc).2
  case err => exact ((effectOf_enc_arc s).resolve_left fun h => hc h.1).2

/-- Settles O44: the responses and the registers are those of the later words after reset, whatever the state. -/
theorem afterClrNothingRemains : Obligations.AfterClrNothingRemains := by
  intro ws s s'
  obtain ⟨t, hex, ht, -⟩ := exchange_completes (encode .clr :: ws) s
  obtain ⟨t', hex', ht', -⟩ := exchange_completes (encode .clr :: ws) s'
  rw [responsesTo_clr] at hex hex'
  rw [regsAfter_clr] at ht ht'
  exact ⟨_, t, t', hex, hex', ht.trans ht'.symm⟩

/-- Settles O2: `NOP` is allowed in every phase and writes nothing, and its only operand byte is 0x00. -/
theorem nopAnswersOkAndChangesNothing : Obligations.NopAnswersOkAndChangesNothing :=
  ⟨fun _ => exec_executes rfl rfl, rfl, fun _ s hd => runWord_of_nonzeroData (op := 0x0) rfl hd s⟩

/-- Settles O3: the registers after `CLR` are those of reset, in phase COLLECT, where `HEX` is refused; and the one other
command that changes a phase, `ENC`, does so in COLLECT. -/
theorem clrReturnsEveryRegisterToReset : Obligations.ClrReturnsEveryRegisterToReset := by
  refine ⟨fun s => ?clears, rfl, fun _ s hd => runWord_of_nonzeroData (op := 0x1) rfl hd s, ?leaves, ?hex⟩
  case clears =>
    exact ⟨_, exec_clr s, rfl, rfl, rfl, rfl, show ∀ i : Fin 14, Regs.reset.g[i] = 0 by decide,
      rfl, rfl, rfl, rfl, rfl, rfl, rfl, rfl⟩
  case leaves =>
    intro i s t hcollect h hne
    obtain ⟨hclr, -⟩ | ⟨-, hph, -⟩ := exec_changes_ph h hne
    · exact hclr
    · exact absurd hph hcollect
  case hex =>
    intro i s t hi h
    rw [exec_clr] at h
    cases h
    exact exec_hex_of_not_done hi (show Phase.collect ≠ Phase.done by decide)

/-- Settles O4: the view of each selector as a sum of its fields, and the three operand bytes of `RDS`. -/
theorem rdsReturnsTheSelectedView : Obligations.RdsReturnsTheSelectedView :=
  ⟨fun s => ⟨_, exec_rds (by decide) s, statusView_toNat _⟩, fun s => ⟨_, exec_rds (by decide) s, flagsView_toNat _⟩,
    fun s => ⟨_, exec_rds (by decide) s, gcntrView_toNat _⟩, rfl, rfl, rfl,
    fun _ s hd => runWord_of_legalBelow_le (op := 0x6) hd s⟩

/-- Settles O40: the invariant leaves cause 0 in COLLECT and DONE, and a cause other than 0 in ERR. -/
theorem statusTakesFiveValues : Obligations.StatusTakesFiveValues := by
  intro s hinv
  obtain ⟨hph, hcause, -⟩ := hinv
  have hnone (hne : s.regs.ph ≠ 2) : s.regs.cause = 0 := not_not.mp (mt hcause.mp hne)
  refine ⟨statusView s.regs, exec_rds (by decide) s, ?_⟩
  obtain h | h | h := hph
  · exact .inl ⟨h, statusView_of_ph h (hnone (by rw [h]; decide))⟩
  · exact .inr (.inl ⟨h, statusView_of_ph h (hnone (by rw [h]; decide))⟩)
  · have hthree : ∀ c : BitVec 2, c ≠ 0 → c = 1 ∨ c = 2 ∨ c = 3 := by decide
    have hview {c : BitVec 2} (hc : s.regs.cause = c) := And.intro hc (statusView_of_ph h hc)
    exact .inr (.inr ⟨h, (hthree _ (hcause.mpr h)).imp hview (Or.imp hview hview)⟩)

end Sys2Proof

/-! The exceptional answers: what a refusal leaves (R205), and what an `ENC` with a cause writes (R195, R196). -/

namespace Sys2Proof.Machine

/-! ### Refusals (R205) -/

/-- R77: `SEQ` and `ILL` are no answers of an executed command. -/
theorem effectOf_code_not_refusal {i : Instr} {s : State} {r : RspWord} (hr : (effectOf i s).rsp = some r) :
    ¬(r.extractLsb' 8 2 = Code.seq ∨ r.extractLsb' 8 2 = Code.ill) := by
  obtain ⟨d, hd⟩ | ⟨-, -, heffect⟩ := effectOf_rsp_cases i s
  · obtain rfl : Code.ok ++ d = r := Option.some.inj (hd.symm.trans hr)
    rw [code_append]
    decide
  · rw [heffect] at hr
    cases hr
    rw [code_append]
    decide

/-- The inversion of a word answered `SEQ` or `ILL`: the checks of R81 refused it. -/
theorem runWord_refused_of_code {w : CmdWord} {s t : State} {r : RspWord} (h : runWord w s = .next t)
    (hr : t.rsp = some r) (hcode : r.extractLsb' 8 2 = Code.seq ∨ r.extractLsb' 8 2 = Code.ill) :
    t = s.answerSeq ∨ t = s.answerIll := by
  cases hd : decode w with
  | illegal why =>
    rw [runWord_illegal hd] at h
    cases h
    exact .inr rfl
  | legal i =>
    rw [runWord_legal hd] at h
    obtain ⟨-, -, rfl⟩ | ⟨-, -, hseq⟩ | ⟨-, hill⟩ := exec_cases h
    · exact absurd hcode (effectOf_code_not_refusal hr)
    · exact .inl hseq
    · exact .inr hill

/-! ### A failing `ENC` (R196) -/

/-- R196: an encode with a cause, on the whole state. -/
theorem exec_enc_raises {s : State} {k : BitVec 2} (hph : s.regs.ph = Phase.collect) (hc : s.regs.encCause = k)
    (hk : k ≠ Cause.none) : exec .enc s =
      .next { s with regs := { s.regs with ph := Phase.err, cause := k }, rsp := some (Code.err ++ k.setWidth 8) } := by
  subst hc
  have ha : allowed .enc s.regs.ph = true := beq_iff_eq.mpr hph
  rw [exec_executes rfl ha, effectOf, encodeNow, if_neg hk]
  rfl

end Sys2Proof.Machine

namespace Sys2Proof

open Machine

/-- Settles O31: such an answer comes from a refusal, which writes the response port only, with data 0. -/
theorem refusalsWriteNothing : Obligations.RefusalsWriteNothing := by
  intro s t w r h hr hcode
  rw [step_offer] at h
  obtain rfl | rfl := runWord_refused_of_code h hr hcode
  · cases hr
    exact ⟨rfl, rfl⟩
  · cases hr
    exact ⟨rfl, rfl⟩

/-- Settles O12: the views read none of the registers `ENC` writes, and the cause is a case for each clause. -/
theorem encCausePriority : Obligations.EncCausePriority := by
  refine ⟨fun s t h => ?views, fun gcnt gbad sbad sne sovf => ⟨?overlong, ?invalid, ?overflow, ?none⟩⟩
  case views =>
    obtain ⟨-, -, -, -, -, hframe, -⟩ := everyCommandKeepsItsFrame
    rw [(hframe s t h).1]
    exact ⟨rfl, rfl⟩
  case overlong =>
    rintro rfl
    exact encCause_of_overlong gbad sbad sne sovf
  case invalid => exact encCause_of_invalid sovf
  case overflow =>
    rintro hn rfl rfl rfl rfl
    exact encCause_of_overflow hn
  case none => exact fun hn hgb hsb hne hso => (encCause_eq_none_iff _ _ _ _ _).mpr ⟨hn, hgb, hsb, hne, hso⟩

/-- Settles O14: each condition gives its cause, which `ENC` writes and answers. -/
theorem encRaisesTheErrorOfInvalidInputs : Obligations.EncRaisesTheErrorOfInvalidInputs := by
  refine ⟨fun s hph hn => ?overlong, fun s hph hn hinvalid => ?invalid,
    fun s hph hn hgb hsb hne hso => ?overflow, fun s hph => ?refused, rfl⟩
  case overlong =>
    have hc : s.regs.encCause = Cause.malformedGtinLength := by rw [Regs.encCause, hn, encCause_of_overlong]
    exact exec_enc_raises hph hc (by decide)
  case invalid => exact exec_enc_raises hph (encCause_of_invalid _ hn hinvalid) (by decide)
  case overflow =>
    have hc : s.regs.encCause = Cause.serialOutOfRange := by
      rw [Regs.encCause, hgb, hsb, hne, hso, encCause_of_overflow hn]
    exact exec_enc_raises hph hc (by decide)
  case refused => exact exec_refuses rfl (beq_eq_false_iff_ne.mpr hph)

end Sys2Proof

/-! The ports at reset and under the hazards of R220 to R228: what an edge does to everything but the word to be held,
the one command in flight, and its countdown to the response. -/

namespace Sys2Proof.Machine

/-! ### Acceptance and the job in hand (R83, R226) -/

theorem accepts_iff {p : Ports} {pin : PinIn} :
    p.accepts pin = true ↔ pin.rst = false ∧ pin.cmdValid = true ∧ p.job = none := by
  simp [Ports.accepts, Ports.cmdReady, and_assoc]

/-- R226: nothing is accepted while a command is in flight. -/
theorem accepts_of_job {p : Ports} (pin : PinIn) (h : p.job ≠ none) : p.accepts pin = false :=
  Bool.eq_false_iff.mpr fun ha => h (accepts_iff.mp ha).2.2

theorem jobAt_of_accepts {p : Ports} {pin : PinIn} (h : p.accepts pin = true) :
    p.jobAt pin = some { word := pin.cmd, left := Config.lat (opField pin.cmd) } :=
  if_pos h

theorem jobAt_of_not_accepts {p : Ports} {pin : PinIn} (h : p.accepts pin = false) : p.jobAt pin = p.job :=
  if_neg (by simp [h])

/-! ### The word to be held (R225, R228) -/

theorem keepsOffer_of_held {p : Ports} {w : CmdWord} (h : p.held = some w) (pin : PinIn) :
    p.keepsOffer pin = true ↔ pin.cmdValid = true ∧ pin.cmd = w := by
  simp [Ports.keepsOffer, h]

theorem keepsOffer_of_held_none {p : Ports} (h : p.held = none) (pin : PinIn) : p.keepsOffer pin = true := by
  simp [Ports.keepsOffer, h]

theorem heldAfter_eq (p : Ports) (pin : PinIn) :
    p.heldAfter pin = if pin.cmdValid = true ∧ p.cmdReady = false then some pin.cmd else none := by
  simp [Ports.heldAfter]

theorem heldAfter_of_not_valid (p : Ports) {pin : PinIn} (h : pin.cmdValid = false) : p.heldAfter pin = none := by
  simp [Ports.heldAfter, h]

theorem heldAfter_of_ready {p : Ports} (h : p.cmdReady = true) (pin : PinIn) : p.heldAfter pin = none := by
  simp [Ports.heldAfter, h]

/-! ### What an edge does -/

theorem edge_of_rst (p : Ports) {pin : PinIn} (h : pin.rst = true) : p.edge pin = .next Ports.afterReset :=
  if_pos h

theorem edge_of_breach {p : Ports} {pin : PinIn} (hrst : pin.rst = false) (h : p.keepsOffer pin = false) :
    p.edge pin = .fault .commandChangedWhileWaiting := by
  simp [Ports.edge, hrst, h]

/-- The block after an edge without reset at which `job` is in hand, before the word to be held is noted. -/
def Ports.afterJob (p : Ports) : Option Job → Ports
  | none => { p with rsp := none }
  | some j =>
    if j.left ≤ 1 then
      { p with regs := (transition j.word p.regs).1, job := none, rsp := some (transition j.word p.regs).2 }
    else { p with job := some { j with left := j.left - 1 }, rsp := none }

theorem afterJob_of_last (p : Ports) {j : Job} (h : j.left ≤ 1) : p.afterJob (some j) =
    { p with regs := (transition j.word p.regs).1, job := none, rsp := some (transition j.word p.regs).2 } :=
  if_pos h

theorem afterJob_of_not_last (p : Ports) {j : Job} (h : ¬j.left ≤ 1) : p.afterJob (some j) =
    { p with job := some { j with left := j.left - 1 }, rsp := none } :=
  if_neg h

/-- R204: where a response is presented no command is in flight. -/
theorem afterJob_job_of_rsp {p : Ports} {job : Option Job} (h : (p.afterJob job).rsp ≠ none) :
    (p.afterJob job).job = none := by
  cases job with
  | none => exact absurd rfl h
  | some j =>
    by_cases hleft : j.left ≤ 1
    · rw [afterJob_of_last p hleft]
    · rw [afterJob_of_not_last p hleft] at h
      exact absurd rfl h

/-- An edge without reset reads the offer only through the job in hand and the word to be held. -/
theorem edge_eq_afterJob {p q : Ports} {pin : PinIn} (hrst : pin.rst = false) (h : p.edge pin = .next q) :
    q = { p.afterJob (p.jobAt pin) with held := p.heldAfter pin } := by
  obtain ⟨hreset, -⟩ | ⟨-, -, ⟨j, hj, hleft, rfl⟩ | ⟨j, hj, hleft, rfl⟩ | ⟨hj, rfl⟩⟩ := edge_cases h
  · simp [hrst] at hreset
  · rw [hj, afterJob_of_last p hleft]
  · rw [hj, afterJob_of_not_last p hleft]
  · rw [hj]
    rfl

/-- R226: the response and a command in flight exclude each other, also after a reset. -/
theorem edge_job_of_rsp {p q : Ports} {pin : PinIn} (h : p.edge pin = .next q) (hrsp : q.rspValid = true) :
    q.job = none := by
  cases hrst : pin.rst with
  | true =>
    rw [edge_of_rst p hrst] at h
    cases h
    rfl
  | false =>
    obtain rfl := edge_eq_afterJob hrst h
    exact afterJob_job_of_rsp (Option.isSome_iff_ne_none.mp hrsp)

/-! ### The countdown to the response (R227) -/

/-- With a job in hand that has as many edges left as the run, the run ends with the answer and presents nothing else.
The job may be in flight or accepted at the first edge. -/
theorem edges_answer {pins : List PinIn} {p q : Ports} {pin : PinIn} {j : Job}
    (hrst : ∀ x ∈ pin :: pins, x.rst = false) (hj : p.jobAt pin = some j) (hleft : j.left = pins.length + 1)
    (h : p.edges (pin :: pins) = .next q) :
    q.regs = (transition j.word p.regs).1 ∧ q.rsp = some (transition j.word p.regs).2 ∧ q.job = none ∧
      p.responsesAlong (pin :: pins) = [(transition j.word p.regs).2] := by
  induction pins generalizing p pin j with
  | nil =>
    obtain ⟨m, hedge, hrest⟩ := edges_cons_cases h
    have hm := edge_eq_afterJob (hrst pin List.mem_cons_self) hedge
    rw [hj, afterJob_of_last p hleft.le] at hm
    rw [responsesAlong_cons [] hedge]
    cases hrest
    subst hm
    exact ⟨rfl, rfl, rfl, rfl⟩
  | cons pin' pins ih =>
    obtain ⟨hpin, hpins⟩ := List.forall_mem_cons.mp hrst
    obtain ⟨m, hedge, hrest⟩ := edges_cons_cases h
    have hm := edge_eq_afterJob hpin hedge
    rw [hj, afterJob_of_not_last p (by rw [hleft, List.length_cons]; omega)] at hm
    have hmjob : m.job = some { j with left := j.left - 1 } := by rw [hm]
    have hmj : m.jobAt pin' = some { j with left := j.left - 1 } := by
      rw [jobAt_of_not_accepts (accepts_of_job pin' (by simp [hmjob])), hmjob]
    obtain ⟨hregs, hrsp, hjob, hresponses⟩ := ih hpins hmj (by simp [hleft]) hrest
    rw [responsesAlong_cons _ hedge, hresponses]
    subst hm
    exact ⟨hregs, hrsp, hjob, rfl⟩

/-- The countdown of a command accepted at the first edge of the run. -/
theorem edges_answer_accepted {pins : List PinIn} {p q : Ports} {w : CmdWord} (hready : p.cmdReady = true)
    (hrst : ∀ pin ∈ pins, pin.rst = false) (hlat : pins.length + 1 = Config.lat (opField w))
    (h : p.edges (⟨false, true, w⟩ :: pins) = .next q) :
    q.regs = (transition w p.regs).1 ∧ q.rsp = some (transition w p.regs).2 ∧ q.job = none ∧
      p.responsesAlong (⟨false, true, w⟩ :: pins) = [(transition w p.regs).2] := by
  have haccepts : p.accepts ⟨false, true, w⟩ = true :=
    accepts_iff.mpr ⟨rfl, rfl, Option.isNone_iff_eq_none.mp hready⟩
  exact edges_answer (j := ⟨w, Config.lat (opField w)⟩) (List.forall_mem_cons.mpr ⟨rfl, hrst⟩)
    (jobAt_of_accepts haccepts) hlat.symm h

/-- A host that offers nothing leaves no word to be held. -/
theorem edges_held_none {pins : List PinIn} {p q : Ports} (hp : p.held = none)
    (hquiet : ∀ pin ∈ pins, pin.rst = false ∧ pin.cmdValid = false) (h : p.edges pins = .next q) : q.held = none := by
  induction pins generalizing p with
  | nil =>
    cases h
    exact hp
  | cons pin pins ih =>
    obtain ⟨⟨hrst, hvalid⟩, hpins⟩ := List.forall_mem_cons.mp hquiet
    obtain ⟨m, hedge, hrest⟩ := edges_cons_cases h
    have hm : m.held = none := by
      rw [edge_eq_afterJob hrst hedge]
      exact heldAfter_of_not_valid p hvalid
    exact ih hm hpins hrest

/-- R227: with nothing in flight and nothing offered, no response stands after the edge. -/
theorem quiet_edge_withdraws {p : Ports} {pin : PinIn} (hjob : p.job = none) (hheld : p.held = none)
    (hrst : pin.rst = false) (hvalid : pin.cmdValid = false) : ∃ q, p.edge pin = .next q ∧ q.rspValid = false := by
  obtain ⟨q, hedge⟩ := edge_completes (.inr (keepsOffer_of_held_none hheld pin))
  have hnone : p.jobAt pin = none := by
    rw [jobAt_of_not_accepts (by simp [Ports.accepts, hvalid]), hjob]
  refine ⟨q, hedge, ?_⟩
  rw [edge_eq_afterJob hrst hedge, hnone]
  rfl

end Sys2Proof.Machine

namespace Sys2Proof

open Machine

/-- Settles O53: a word to be held is offered unchanged or the edge faults, and `cmd` is read only for acceptance and for
the word to be held. -/
theorem portHostMustHoldTheWord : Obligations.PortHostMustHoldTheWord := by
  refine ⟨fun p pin w hheld hrst hchanged => ?breach, fun p q pin hrst h => ?held,
    fun p q q' pin pin' hrst hvalid hunread h h' => ?unread⟩
  case breach =>
    exact edge_of_breach hrst (Bool.eq_false_iff.mpr (mt (keepsOffer_of_held hheld pin).mp hchanged))
  case held =>
    rw [edge_eq_afterJob hrst h]
    exact heldAfter_eq p pin
  case unread =>
    cases hr : pin.rst with
    | true =>
      rw [edge_of_rst p hr] at h
      rw [edge_of_rst p (hrst ▸ hr)] at h'
      cases h
      cases h'
      exact ⟨rfl, rfl, rfl⟩
    | false =>
      have hjob (x : PinIn) (hx : x.cmdValid = false ∨ p.cmdReady = false) : p.jobAt x = p.job :=
        jobAt_of_not_accepts (by rcases hx with hx | hx <;> simp [Ports.accepts, hx])
      rw [edge_eq_afterJob hr h, edge_eq_afterJob (hrst ▸ hr) h', hjob pin hunread, hjob pin' (hvalid ▸ hunread)]
      exact ⟨rfl, rfl, rfl⟩

/-- Settles O54: acceptance needs an empty block, the accepted command is the job in hand at its edge, and a response
leaves the block empty. -/
theorem portHoldsOneCommandInFlight : Obligations.PortHoldsOneCommandInFlight := by
  refine ⟨fun p pin => accepts_of_job pin, fun p q pin h ha => ?accepted, fun p pin hrst hvalid => ?offered,
    fun p q pin h hrsp => Option.isNone_iff_eq_none.mpr (edge_job_of_rsp h hrsp)⟩
  case accepted =>
    rw [edge_eq_afterJob (accepts_iff.mp ha).1 h, jobAt_of_accepts ha]
    by_cases hlast : Config.lat (opField pin.cmd) ≤ 1
    · rw [afterJob_of_last p hlast]
      exact .inr ⟨rfl, rfl⟩
    · rw [afterJob_of_not_last p hlast]
      exact .inl ⟨_, rfl, rfl, rfl⟩
  case offered =>
    by_cases hjob : p.job = none
    · exact .inl (accepts_iff.mpr ⟨hrst, hvalid, hjob⟩)
    · exact .inr hjob

/-- Settles O58, by the countdown of the accepted command; a host that offers nothing breaks no duty on the way. -/
theorem portAnswersAfterLat : Obligations.PortAnswersAfterLat := by
  refine ⟨fun op => Nat.le_add_left 1 _, fun p q w pins hready hrst hlat h => ?answered,
    fun p w pins hready hheld hquiet hlat => ?quiet⟩
  case answered =>
    obtain ⟨hregs, hrsp, -, hresponses⟩ := edges_answer_accepted hready hrst hlat h
    exact ⟨_, _, runWord_eq w _, rfl, hregs, hrsp, hresponses⟩
  case quiet =>
    obtain ⟨m, hedge⟩ := edge_completes (pin := ⟨false, true, w⟩) (.inr (keepsOffer_of_held_none hheld _))
    have hm : m.held = none := by
      rw [edge_eq_afterJob rfl hedge]
      exact heldAfter_of_ready hready _
    obtain ⟨q, hrest⟩ := quiet_edges_complete pins m hm hquiet
    have h : p.edges (⟨false, true, w⟩ :: pins) = .next q := by rw [Ports.edges, hedge]; exact hrest
    obtain ⟨-, hrsp, hjob, -⟩ := edges_answer_accepted hready (fun pin hpin => (hquiet pin hpin).1) hlat h
    exact ⟨q, h, Option.isSome_of_eq_some hrsp,
      fun x => quiet_edge_withdraws hjob (edges_held_none hm hquiet hrest) rfl rfl⟩

/-- Settles O45: both moves reset, whatever word was in flight. -/
theorem resetMoveClearsTheBlock : Obligations.ResetMoveClearsTheBlock :=
  fun _ _ _ => ⟨step_reset rfl, step_commandThenReset rfl⟩

/-- Settles O46: both steps write the response port only. -/
theorem idleCyclesChangeNothing : Obligations.IdleCyclesChangeNothing :=
  ⟨fun _ h => step_no_move h, fun s rest => step_idle (s := { s with host := .idle :: rest }) rfl⟩

/-- Settles O47: `step` has an arm for each breach. -/
theorem hostBreachStopsTheMachine : Obligations.HostBreachStopsTheMachine :=
  fun _ _ _ => ⟨rfl, rfl⟩

/-- Settles O52: the edge leads to the block after reset, and acceptance needs `rst` = 0. -/
theorem portResetEdgeClearsTheBlock : Obligations.PortResetEdgeClearsTheBlock := by
  intro p pin hrst
  have hnone : p.accepts pin = false := by simp [Ports.accepts, hrst]
  exact ⟨Ports.afterReset, edge_of_rst p hrst, rfl, rfl, rfl, rfl, hnone⟩

end Sys2Proof
